-- ==== Sys2Proof/Word.lean ====
section
/-! DEFINITION. The word and byte types of CRM (00_scope.md R7, R8: registers are 32 bits, a byte is 8 bits, both unsigned). -/

namespace Sys2Proof

/-- A register value, a command word or a host address: 32 bits, unsigned (R7, R8). -/
abbrev Word := BitVec 32

/-- One byte of `BUF`: 8 bits, unsigned (R7, R8). -/
abbrev Byte := BitVec 8

end Sys2Proof
end

