-- ==== Sys2Proof/Syntax.lean ====
section
/-! DEFINITION. The commands of CRM, one constructor per row of spec/opcode_table.json (30_encoding.md R57, R60). -/

namespace Sys2Proof

/-- A command. No command has an immediate operand (R61); the one field that varies is `ADV`, which only
`WRITE_RECORD` and `PUT32` may set (R58). -/
inductive Instr where
  /-- `NOP` (R84). -/
  | nop
  /-- `CRC_INIT` (R71). -/
  | crcInit
  /-- `CRC_FEED` (R72). -/
  | crcFeed
  /-- `CRC_FINAL` (R73). -/
  | crcFinal
  /-- `CHECKSUM` (R74). -/
  | checksum
  /-- `WRITE_RECORD`, and `WRITE_RECORD.ADV` when `adv` (R77, R80). -/
  | writeRecord (adv : Bool)
  /-- `PUT32`, and `PUT32.ADV` when `adv` (R81). -/
  | put32 (adv : Bool)
  deriving DecidableEq, Repr

end Sys2Proof
end

