-- ==== Sys2Proof/WellFormed.lean ====
section
/-! DEFINITION. The four fields of a command word (30_encoding.md R56), the checks that make a command word legal
(R57 to R59, R62). -/

namespace Sys2Proof

/-- The fields of a command word, as R56 cuts it. -/
structure CommandWord where
  /-- `OP`, bits 3:0. -/
  op : BitVec 4
  /-- `RSV0`, bits 7:4, must be 0. -/
  rsv0 : BitVec 4
  /-- `ADV`, bit 8. -/
  adv : Bool
  /-- `RSV1`, bits 31:9, must be 0. -/
  rsv1 : BitVec 23
  deriving DecidableEq, Repr

/-- `OP` names an operation: 0x0 to 0x6; 0x7 to 0xF are reserved (R57, R62). -/
def CommandWord.opDefined (f : CommandWord) : Bool := f.op.toNat ≤ 6

/-- `RSV0` is 0 (R59). -/
def CommandWord.rsv0Clear (f : CommandWord) : Bool := f.rsv0 == 0#4

/-- `RSV1` is 0 (R59). -/
def CommandWord.rsv1Clear (f : CommandWord) : Bool := f.rsv1 == 0#23

/-- `ADV` is set only with `OP` 0x5 or 0x6 (R58). -/
def CommandWord.advAllowed (f : CommandWord) : Bool := !f.adv || f.op == 5#4 || f.op == 6#4

/-- A legal command word (R60): all four checks hold. -/
def CommandWord.wellFormed (f : CommandWord) : Bool :=
  f.opDefined && f.rsv0Clear && f.rsv1Clear && f.advAllowed

end Sys2Proof
end

