-- ==== Sys2Proof/Decode.lean ====
section
/-! DEFINITION. Decoding a command word (30_encoding.md R56 to R60), total on all 32-bit words and rejecting by name, then
the encoder, the table of the nine legal words and the spellings of R66. -/

namespace Sys2Proof

/-- Why a word is no command. All three are `ILLEGAL_CMD`, code 1 (R62, R85). -/
inductive Reject where
  /-- `RSV0` or `RSV1` is not 0 (R59). -/
  | reservedField
  /-- `OP` is 0x7 to 0xF (R57). -/
  | reservedOp
  /-- `ADV` is set with `OP` 0x0 to 0x4 (R58). -/
  | advNotAllowed
  deriving DecidableEq, Repr

/-- What decoding a word gives: every word is one of the two (A3 of 93_implementation_defined.md). -/
inductive Decoded where
  | command (i : Instr)
  | illegal (why : Reject)
  deriving DecidableEq, Repr

/-- Cuts a word into the fields of R56. -/
def CommandWord.ofWord (w : Word) : CommandWord where
  op := w.extractLsb' 0 4
  rsv0 := w.extractLsb' 4 4
  adv := w.getLsbD 8
  rsv1 := w.extractLsb' 9 23

/-- Lays the fields out as R56 does: `RSV1` on top, then `ADV`, `RSV0` and `OP`. -/
def CommandWord.toWord (f : CommandWord) : Word :=
  f.rsv1 ++ BitVec.ofBool f.adv ++ f.rsv0 ++ f.op

/-- The command of an `OP` whose `ADV` bit is given and whose reserved fields are 0 (R57, R58). -/
def decodeOp (op : BitVec 4) (adv : Bool) : Decoded :=
  match op.toNat, adv with
  | 0, false => .command .nop
  | 1, false => .command .crcInit
  | 2, false => .command .crcFeed
  | 3, false => .command .crcFinal
  | 4, false => .command .checksum
  | 5, adv => .command (.writeRecord adv)
  | 6, adv => .command (.put32 adv)
  | 0, true => .illegal .advNotAllowed
  | 1, true => .illegal .advNotAllowed
  | 2, true => .illegal .advNotAllowed
  | 3, true => .illegal .advNotAllowed
  | 4, true => .illegal .advNotAllowed
  | _, _ => .illegal .reservedOp

/-- Decodes the fields of a word: a nonzero reserved field is illegal whatever the `OP` (R59). -/
def decodeFields (f : CommandWord) : Decoded :=
  if f.rsv0 = 0#4 ∧ f.rsv1 = 0#23 then decodeOp f.op f.adv else .illegal .reservedField

/-- Decodes a command word; no bit of it is ignored (R59). -/
def decode (w : Word) : Decoded := decodeFields (CommandWord.ofWord w)

/-- The command a decoding gives, if it gives one. -/
def Decoded.instr? : Decoded → Option Instr
  | .command i => some i
  | .illegal _ => none

/-- The command word of an instruction given as the opcode table numbers its bits. CRM has one length, 32 bits
(R56, R63), and no operand words. -/
def tableWord (nbits w : Nat) : Word := BitVec.ofNat 32 (w % 2 ^ nbits)

/-- What the decoder reads from the bits of an opcode-table row. -/
def decodeTableWord (nbits w : Nat) : Option Instr := (decode (tableWord nbits w)).instr?

/-- The `OP` of a command (R57). -/
def Instr.op : Instr → BitVec 4
  | .nop => 0x0#4
  | .crcInit => 0x1#4
  | .crcFeed => 0x2#4
  | .crcFinal => 0x3#4
  | .checksum => 0x4#4
  | .writeRecord _ => 0x5#4
  | .put32 _ => 0x6#4

/-- The `ADV` of a command (R58). -/
def Instr.adv : Instr → Bool
  | .nop => false
  | .crcInit => false
  | .crcFeed => false
  | .crcFinal => false
  | .checksum => false
  | .writeRecord adv => adv
  | .put32 adv => adv

/-- The fields of a command's word: the reserved fields are 0 (R56). -/
def Instr.fields (i : Instr) : CommandWord := ⟨i.op, 0#4, i.adv, 0#23⟩

/-- A command is well formed when its fields make a legal word. `Instr` has no ill-formed term: the types of its
arguments admit only what R60 admits, and Laws/PerInstr.lean proves it command by command. -/
def Instr.wellFormed (i : Instr) : Bool := i.fields.wellFormed

/-- The word of a command (R56, R60). -/
def encode (i : Instr) : Word := i.fields.toWord

/-- The nine legal words, with the command each stands for, written out from R60. -/
def legalWords : List (Word × Instr) :=
  [ (0x00000000#32, .nop),
    (0x00000001#32, .crcInit),
    (0x00000002#32, .crcFeed),
    (0x00000003#32, .crcFinal),
    (0x00000004#32, .checksum),
    (0x00000005#32, .writeRecord false),
    (0x00000105#32, .writeRecord true),
    (0x00000006#32, .put32 false),
    (0x00000106#32, .put32 true) ]

/-- The spelling of a command: its mnemonic, with `.ADV` exactly when bit 8 is set (R60, R66). -/
def Instr.spelling : Instr → String
  | .nop => "NOP"
  | .crcInit => "CRC_INIT"
  | .crcFeed => "CRC_FEED"
  | .crcFinal => "CRC_FINAL"
  | .checksum => "CHECKSUM"
  | .writeRecord false => "WRITE_RECORD"
  | .writeRecord true => "WRITE_RECORD.ADV"
  | .put32 false => "PUT32"
  | .put32 true => "PUT32.ADV"

/-- A line of disassembly (R66). -/
inductive Listing where
  /-- The spelling of R60. -/
  | spelled (text : String)
  /-- `illegal <word>`: an illegal word has no mnemonic. -/
  | illegal (word : Word)
  deriving DecidableEq, Repr

/-- Disassembly of a word (R66). -/
def disassemble (w : Word) : Listing :=
  match decode w with
  | .command i => .spelled i.spelling
  | .illegal _ => .illegal w

/-- The word of a spelling, if it is one of the nine of R60 (R66). -/
def assemble (text : String) : Option Word :=
  (legalWords.find? (fun row => row.2.spelling == text)).map (fun row => row.1)

end Sys2Proof
end

