-- ==== Sys2Proof/Config.lean ====
section
/-! DEFINITION. What is fixed for one CRM and what the spec leaves open: the constants of 10_state.md R32, the parameter
`BUF_SIZE` of 00_scope.md R7, the free bytes of 10_state.md R14, and the place of the port (20_memory.md R41). -/

namespace Sys2Proof.Config

/-- The CRC-32 polynomial, in its reflected form (R2, R32). -/
def crcPoly : Word := 0xEDB88320#32

/-- The value every CRC computation starts from (R2, R32). -/
def crcInit : Word := 0xFFFFFFFF#32

/-- The final exclusive or, which is the final complement (R2, R32). -/
def crcFinalXor : Word := 0xFFFFFFFF#32

/-- `BUF_BASE`: the host address of `BUF[0]` (R7, R36). -/
def bufBase : Nat := 0x80000000

/-- The first host address after the register window (R36). -/
def regWindowEnd : Nat := 0x1000

/-- The address of the last register of the register window, `NEXT` (R36, R37). -/
def lastRegAddr : Nat := 0x24

/-- The least `BUF_SIZE` (R7). -/
def minBufSize : Nat := 12

/-- The greatest `BUF_SIZE` (R7). -/
def maxBufSize : Nat := 2 ^ 31

/-- The bytes of a record that are not payload: length, tag and checksum fields (R75). -/
def recordFraming : Nat := 12

/-- The OPEN parameter of R7. A CRM has one value of it for its whole life; `State` carries it and no step changes it
(DESIGN CHOICE, log entry 1). -/
structure Params where
  /-- `BUF_SIZE`, the number of bytes of `BUF`. -/
  bufSize : Nat
  deriving DecidableEq, Repr

/-- The range R7 gives `BUF_SIZE`. -/
abbrev Params.legal (p : Params) : Prop := minBufSize ≤ p.bufSize ∧ p.bufSize ≤ maxBufSize

/-- FREE VALUE (R14, A8): what a read of an unwritten cell of `BUF` returns. The argument is the number of the draw, so
two reads are two values and nothing relates them (DESIGN CHOICE, log entry 3). -/
opaque freeByte : Nat → Byte

/-- `CRM_PORT_BASE` (20_memory.md R41): where the host's system sees `h_addr = 0`. The platform decides it, so it has no
value here, and CRM does not see it (DESIGN CHOICE, log entry 13). -/
opaque portBase : Nat

end Sys2Proof.Config
end

