-- ==== Sys2Proof/Machine/HostPort.lean ====
section
/-! DEFINITION. The host port of CRM: the registers and their offsets (10_state.md R17), transfers and their completions
(20_memory.md R34, R35), and the address map (R36 to R39). -/

namespace Sys2Proof.Machine

/-- The names of the register window (R17). -/
inductive Reg where
  | cmd | status | offset | length | src | tag | data | crcAcc | result | next
  deriving DecidableEq, Repr

/-- The registers in the order of their offsets (R17). -/
def Reg.all : List Reg :=
  [.cmd, .status, .offset, .length, .src, .tag, .data, .crcAcc, .result, .next]

/-- The offset of a register in the register window (R17). -/
def Reg.addr : Reg → Word
  | .cmd => 0x00#32
  | .status => 0x04#32
  | .offset => 0x08#32
  | .length => 0x0C#32
  | .src => 0x10#32
  | .tag => 0x14#32
  | .data => 0x18#32
  | .crcAcc => 0x1C#32
  | .result => 0x20#32
  | .next => 0x24#32

/-- The register at an address, if one is there (R17, R36). -/
def regAt (a : Word) : Option Reg := Reg.all.find? (fun r => r.addr == a)

/-- `h_size` (R34): 0 byte, 1 halfword, 2 word, 3 reserved. -/
inductive Size where
  | byte | half | word | reserved
  deriving DecidableEq, Repr

/-- The two bits of `h_size` on the port (R34). -/
def Size.code : Size → BitVec 2
  | .byte => 0#2
  | .half => 1#2
  | .word => 2#2
  | .reserved => 3#2

/-- What a host requests: the signals it holds stable from `h_req = 1` until the completion cycle (R34, R35). -/
structure Transfer where
  /-- `h_we`: a write. -/
  we : Bool
  /-- `h_addr`: a byte address of the host address space, relative to the port (R33, R41). -/
  addr : Word
  /-- `h_size`. -/
  size : Size
  /-- `h_wdata`; a read does not use it. -/
  wdata : Word
  deriving DecidableEq, Repr

/-- The address of a transfer in the host's system: the port stands at `CRM_PORT_BASE` there (R41). -/
def Transfer.systemAddr (t : Transfer) : Nat := Config.portBase + t.addr.toNat

/-- The outputs of the port in a completion cycle (R34): `h_ready = 1` and these. -/
structure Completion where
  /-- `h_rdata`, which is valid only when a read completes. -/
  rdata : Option Word
  /-- `h_err`: a bus error (R40). -/
  err : Bool
  deriving DecidableEq, Repr

/-- What a transfer reaches (R36 to R39). -/
inductive Target where
  /-- A register of the register window. -/
  | reg (r : Reg)
  /-- A byte of `BUF`, by its offset. -/
  | cell (i : Nat)
  /-- Nothing: the transfer gets a bus error. -/
  | busError
  deriving DecidableEq, Repr

/-- A transfer to the register window is performed only as an aligned word at or below 0x24 (R37). -/
def regTarget (t : Transfer) : Target :=
  if t.size = .word ∧ t.addr.toNat % 4 = 0 ∧ t.addr.toNat ≤ Config.lastRegAddr then
    match regAt t.addr with
    | some r => .reg r
    | none => .busError
  else .busError

/-- A transfer to the buffer window is performed only as a byte (R38). -/
def cellTarget (t : Transfer) : Target :=
  if t.size = .byte then .cell (t.addr.toNat - Config.bufBase) else .busError

/-- The decoding of the host address space (R36); `h_size = 3` is a bus error at every address (R39). -/
def target (p : Config.Params) (t : Transfer) : Target :=
  if t.size = .reserved then .busError
  else if t.addr.toNat < Config.regWindowEnd then regTarget t
  else if Config.bufBase ≤ t.addr.toNat ∧ t.addr.toNat < Config.bufBase + p.bufSize then cellTarget t
  else .busError

/-- The one transfer that is never held: a word read of `STATUS` (R113, R114; DEDUCED, log entry 11). -/
def Transfer.isStatusRead (t : Transfer) : Bool :=
  !t.we && t.size == .word && t.addr == Reg.status.addr

/-- A word read of a register, which is what an `R32` line is on the port (30_encoding.md R64). -/
def Transfer.isRegRead (t : Transfer) : Bool :=
  !t.we && t.size == .word && (regAt t.addr).isSome

end Sys2Proof.Machine
end

