-- ==== Sys2Proof/Machine/HostScript.lean ====
section
/-! DEFINITION. Host scripts, the programs of CRM (30_encoding.md R64): their lines, the transfer each line is on the port,
and the pseudo-instructions of R65 with their expansions. -/

namespace Sys2Proof.Machine

/-- A host-side label; scripts number their labels (DESIGN CHOICE, log entry 10). -/
abbrev Label := Nat

/-- One line of a host script (R64). -/
inductive ScriptLine where
  /-- `W32 <reg>, <v>`. -/
  | w32 (r : Reg) (v : Word)
  /-- `R32 <reg>`, or `R32 <reg> -> <v>`, which is the same transfer and states a value. -/
  | r32 (r : Reg) (stated : Option Word)
  /-- `W8 BUF[<i>], <b>`. -/
  | w8 (i : BitVec 31) (b : Byte)
  /-- `R8 BUF[<i>]`, or `R8 BUF[<i>] -> <b>`. -/
  | r8 (i : BitVec 31) (stated : Option Byte)
  /-- `CMD <MNEMONIC>`. -/
  | cmd (i : Instr)
  /-- Any other transfer: a host may issue any transfer at any time (R117); R64 gives it no line of its own. -/
  | xfer (t : Transfer)
  /-- `<label>:`. -/
  | label (l : Label)
  /-- `BNZ <mask>, <label>`. -/
  | bnz (mask : Word) (l : Label)
  deriving DecidableEq, Repr

/-- The host address of `BUF[i]`: 0x8000_0000 + i (R36, R64). -/
def cellAddr (i : BitVec 31) : Word := BitVec.ofNat 32 (Config.bufBase + i.toNat)

/-- What a line makes the host do: a transfer on the port, nothing, or a host-side branch (R64). -/
inductive HostAct where
  | transfer (t : Transfer)
  | pass
  | branch (mask : Word) (l : Label)
  deriving DecidableEq, Repr

/-- The action of a line, with its encoding on the port (R64). -/
def ScriptLine.act : ScriptLine → HostAct
  | .w32 r v => .transfer ⟨true, r.addr, .word, v⟩
  | .r32 r _ => .transfer ⟨false, r.addr, .word, 0#32⟩
  | .w8 i b => .transfer ⟨true, cellAddr i, .byte, b.setWidth 32⟩
  | .r8 i _ => .transfer ⟨false, cellAddr i, .byte, 0#32⟩
  | .cmd i => .transfer ⟨true, Reg.cmd.addr, .word, encode i⟩
  | .xfer t => .transfer t
  | .label _ => .pass
  | .bnz mask l => .branch mask l

/-- The place of a label in a script, counted from `k`. -/
def findLabel (l : Label) : List ScriptLine → Nat → Option Nat
  | [], _ => none
  | line :: rest, k => if line = .label l then some k else findLabel l rest (k + 1)

/-- The labels a script defines, in order. -/
def definedLabels : List ScriptLine → List Label
  | [] => []
  | .label l :: rest => l :: definedLabels rest
  | _ :: rest => definedLabels rest

/-- The labels a script goes to, in order. -/
def usedLabels : List ScriptLine → List Label
  | [] => []
  | .bnz _ l :: rest => l :: usedLabels rest
  | _ :: rest => usedLabels rest

/-- Every label a script goes to is one of its labels. -/
def labelsResolve (script : List ScriptLine) : Bool :=
  (usedLabels script).all (fun l => (findLabel l script 0).isSome)

/-- A well-formed script: its labels resolve and none is defined twice. -/
def scriptWellFormed (script : List ScriptLine) : Bool :=
  labelsResolve script && decide (definedLabels script).Nodup

/-- The pseudo-instructions of R65. -/
inductive Pseudo where
  /-- `WAIT`: poll until `BUSY = 0`. -/
  | wait
  /-- `CLRERR`: clear `DONE`, `ERR` and `ERRCODE`. -/
  | clrerr
  /-- `SETR <o>, <n>`. -/
  | setr (o n : Word)
  /-- `CRC <o>, <n>`. -/
  | crc (o n : Word)
  /-- `PUTW <v>`. -/
  | putw (v : Word)
  /-- `SIG`: the 8-byte signature. -/
  | sig
  /-- `RECORD <tag>, <src>, <n>`. -/
  | record (tag src n : Word)
  /-- `W8S BUF[<i>], <b0> ... <bk>`. -/
  | w8s (i : BitVec 31) (bytes : List Byte)
  deriving DecidableEq, Repr

/-- The byte writes of a `W8S` (R65): byte `k` goes to `BUF[i + k]`, in unbounded arithmetic (00_scope.md R8). None when an
offset is 2^31 or more: `0x8000_0000 + <i>` is then no 32-bit address, so no `W8` line writes it (DESIGN CHOICE, log
entry 10). -/
def expandW8s (i : Nat) : List Byte → Option (List ScriptLine)
  | [] => some []
  | b :: rest =>
    if i < Config.maxBufSize then (expandW8s (i + 1) rest).map (fun lines => .w8 (BitVec.ofNat 31 i) b :: lines)
    else none

/-- The expansion of a pseudo-instruction (R65), if it has one; `fresh` is the label a `WAIT` uses. -/
def Pseudo.expand (fresh : Label) : Pseudo → Option (List ScriptLine)
  | .wait => some [.label fresh, .r32 .status none, .bnz 0x1#32 fresh]
  | .clrerr => some [.w32 .status 0x00000006#32]
  | .setr o n => some [.w32 .offset o, .w32 .length n]
  | .crc o n => some [.w32 .offset o, .w32 .length n, .cmd .checksum, .r32 .result none]
  | .putw v => some [.w32 .data v, .cmd (.put32 true)]
  | .sig =>
    some [.w32 .data 0x89504E47#32, .cmd (.put32 true), .w32 .data 0x0D0A1A0A#32, .cmd (.put32 true)]
  | .record tag src n => some [.w32 .tag tag, .w32 .src src, .w32 .length n, .cmd (.writeRecord true)]
  | .w8s i bytes => expandW8s i.toNat bytes

/-- A line as a script's author writes it: a line of R64 or a pseudo-instruction of R65. -/
inductive SourceLine where
  | line (l : ScriptLine)
  | pseudo (p : Pseudo)
  deriving DecidableEq, Repr

/-- The lines of R64 an author wrote, pseudo-instructions left out. -/
def plainLines : List SourceLine → List ScriptLine
  | [] => []
  | .line l :: rest => l :: plainLines rest
  | .pseudo _ :: rest => plainLines rest

/-- Expands a script, taking fresh labels from `fresh` on; none when a pseudo-instruction of it has no expansion. -/
def expandFrom (fresh : Label) : List SourceLine → Option (List ScriptLine)
  | [] => some []
  | .line l :: rest => (expandFrom fresh rest).map (fun lines => l :: lines)
  | .pseudo p :: rest =>
    (p.expand fresh).bind (fun first => (expandFrom (fresh + 1) rest).map (fun lines => first ++ lines))

/-- A label above every label of a list. -/
def freshAbove (ls : List Label) : Label := ls.foldr (fun l m => max (l + 1) m) 0

/-- The script an author's lines stand for (R64, R65), if they stand for one: the label of each `WAIT` is fresh. -/
def expandScript (src : List SourceLine) : Option (List ScriptLine) :=
  expandFrom (freshAbove (definedLabels (plainLines src) ++ usedLabels (plainLines src))) src

end Sys2Proof.Machine
end

