-- ==== Sys2Proof/Machine/State.lean ====
section
/-! DEFINITION. The state of CRM as plain data (10_state.md), the agents that drive it, the reasons a step can stop, and
the state after power-on reset (70_reset_and_hazards.md R106 to R108). -/

namespace Sys2Proof.Machine

/-- The bytes of `BUF` that are written, by offset (10_state.md R13, R14). An offset that is not listed is unwritten. -/
abbrev Memory := List Host.Cell

/-- The one form a memory has: its addresses strictly rise. An unlisted address reads as no fixed byte, so every byte
value may be listed. -/
abbrev Memory.wf (m : Memory) : Prop := m.Pairwise (fun x y => x.1 < y.1)

/-- The fields of `STATUS` (R27). Bits 3 and 31:8 are hardwired to 0 and hold nothing. -/
structure Status where
  /-- Bit 0, `BUSY`. -/
  busy : Bool
  /-- Bit 1, `DONE`. -/
  done : Bool
  /-- Bit 2, `ERR`. -/
  err : Bool
  /-- Bits 7:4, `ERRCODE`. -/
  errcode : BitVec 4
  deriving DecidableEq, Repr

/-- The operand registers as acceptance samples them (R30; 60_exceptions.md R95). -/
structure Operands where
  offset : Word
  length : Word
  src : Word
  tag : Word
  data : Word
  crcAcc : Word
  deriving DecidableEq, Repr

/-- The in-flight command (R30): the accepted word and the sampled operands. `wait` is what is left of the command's
latency, in host moves (R115; DESIGN CHOICE, log entry 2). -/
structure InFlight where
  word : Word
  ops : Operands
  wait : Nat
  deriving DecidableEq, Repr

/-- The host, the bus master on the port (R15): the script it runs (30_encoding.md R64), the line it is at, and the value
of its last `R32`, which `BNZ` reads. The line it is at is the request it holds on the port (20_memory.md R35). -/
structure HostAgent where
  script : List ScriptLine
  line : Nat
  lastR32 : Word
  deriving DecidableEq, Repr

/-- The whole state. -/
structure State where
  /-- The parameter `BUF_SIZE` (R7, R32); no step changes it. -/
  params : Config.Params
  /-- `STATUS`, 0x04 (R27). -/
  status : Status
  /-- `OFFSET`, 0x08 (R18). -/
  offset : Word
  /-- `LENGTH`, 0x0C (R19). -/
  length : Word
  /-- `SRC`, 0x10 (R20). -/
  src : Word
  /-- `TAG`, 0x14 (R21). -/
  tag : Word
  /-- `DATA`, 0x18 (R22). -/
  data : Word
  /-- `CRC_ACC`, 0x1C (R23). -/
  crcAcc : Word
  /-- `RESULT`, 0x20 (R24). -/
  result : Word
  /-- `NEXT`, 0x24 (R25). -/
  next : Word
  /-- The register of the private CRC datapath (R30): not readable, not `CRC_ACC`. -/
  crcPriv : Word
  /-- The in-flight command, present exactly while `BUSY = 1` (R30). -/
  inFlight : Option InFlight
  /-- `BUF` (R13, R14). -/
  buf : Memory
  /-- The model's own: how many free bytes have been drawn (R14; DESIGN CHOICE, log entry 3). -/
  draws : Nat
  /-- The outputs of the port at the last step: the completion, if a transfer completed (R34). -/
  port : Option Completion
  /-- The host (R15). -/
  host : HostAgent
  /-- The samples of `rst_n` at the coming steps, first first; after the last, `rst_n` is 1 (R106). -/
  rstN : List Bool
  /-- The latencies of the coming commands, `LAT` (R7, R115; DESIGN CHOICE, log entry 2); after the last, 0. -/
  lat : List Nat
  deriving DecidableEq, Repr

/-- Why a step stops. CRM itself has no trap and no stop (60_exceptions.md R88): the one reason is the host's. -/
inductive Fault where
  /-- Raised by `step` when the host's script does `BNZ` to a label it does not define. Safe: the spec gives such a
  script no meaning, and a well-formed script never does it. -/
  | undefinedLabel (l : Label)
  deriving DecidableEq, Repr

/-- Why a step has no meaning. -/
inductive Refusal where
  /-- Raised by `exec` for a command that has no meaning yet; no command of CRM is one. Safe. -/
  | notModelled (mnemonic : String)
  deriving DecidableEq, Repr

/-- `STATUS = 0x0000_0000` (R17). -/
def Status.reset : Status := ⟨false, false, false, 0#4⟩

/-- A host that requests nothing. -/
def HostAgent.idle : HostAgent := ⟨[], 0, 0#32⟩

/-- CRM just after power-on reset, for each value of the parameter (R17, R107, R108): every byte of `BUF` is
unwritten, nothing is in flight. The spec gives `crcPriv`, `draws`, the port outputs and the host no reset value
(DESIGN CHOICE, log entries 3, 4 and 5). -/
def State.powerOn (p : Config.Params) : State where
  params := p
  status := Status.reset
  offset := 0x00000000#32
  length := 0x00000000#32
  src := 0x00000000#32
  tag := 0x00000000#32
  data := 0x00000000#32
  crcAcc := 0xFFFFFFFF#32
  result := 0x00000000#32
  next := 0x00000000#32
  crcPriv := Config.crcInit
  inFlight := none
  buf := []
  draws := 0
  port := none
  host := HostAgent.idle
  rstN := []
  lat := []

/-- The machine right after reset, with `BUF_SIZE = 256`, the size 95_test_vectors.md uses (DESIGN CHOICE, log entry 1). -/
def State.reset : State := State.powerOn ⟨256⟩

end Sys2Proof.Machine
end

