-- ==== Sys2Proof/Machine/Flags.lean ====
section
/-! DEFINITION. The flags of CRM, which are the fields of `STATUS` (10_state.md R27 to R29): the word a host reads, what a
host write clears, and what a command's lifecycle sets (60_exceptions.md R92, R95, R96). -/

namespace Sys2Proof.Machine

/-- The errors a command can end with (R89). -/
inductive CmdError where
  | illegalCmd | bounds | overlap
  deriving DecidableEq, Repr

/-- The code of an error in `ERRCODE` (R89). -/
def CmdError.code : CmdError → BitVec 4
  | .illegalCmd => 1#4
  | .bounds => 2#4
  | .overlap => 3#4

/-- The word a host reads from `STATUS`: `ERRCODE` in bits 7:4, bit 3 and bits 31:8 zero (R27). -/
def Status.word (st : Status) : Word :=
  0#24 ++ st.errcode ++ 0#1 ++ BitVec.ofBool st.err ++ BitVec.ofBool st.done ++ BitVec.ofBool st.busy

/-- A host write of `w` to `STATUS` (R28): bit 1 clears `DONE`; bit 2 clears `ERR` and `ERRCODE` with it. -/
def Status.hostWrite (st : Status) (w : Word) : Status where
  busy := st.busy
  done := st.done && !w.getLsbD 1
  err := st.err && !w.getLsbD 2
  errcode := if w.getLsbD 2 then 0#4 else st.errcode

/-- `STATUS` when a command is accepted (R95). -/
def Status.accepted (st : Status) : Status := { st with busy := true, done := false }

/-- `STATUS` when a command completes without error (R96): `ERR` and `ERRCODE` stay. -/
def Status.completed (st : Status) : Status := { st with busy := false, done := true }

/-- `STATUS` when a command ends with an error (R92). -/
def Status.failed (e : CmdError) : Status := ⟨false, true, true, e.code⟩

end Sys2Proof.Machine
end

