-- ==== Sys2Proof/Machine/Ops.lean ====
section
/-! DEFINITION. The named operations over `BUF` and the command lifecycle: reading and writing bytes (00_scope.md R9,
10_state.md R14), the big-endian field (20_memory.md R42), and how a command ends (60_exceptions.md R92, R96) and is
accepted (R95). -/

namespace Sys2Proof.Machine

/-! ### Bytes of `BUF` -/

/-- The byte written at an offset; none when the cell is unwritten (R14). -/
def Memory.get (m : Memory) (a : Nat) : Option Byte :=
  match m with
  | [] => none
  | c :: rest => if c.1 = a then some c.2 else Memory.get rest a

/-- Writes a byte: the cell becomes written (R14). -/
def Memory.set (m : Memory) (a : Nat) (b : Byte) : Memory :=
  match m with
  | [] => [(a, b)]
  | c :: rest =>
    if a < c.1 then (a, b) :: c :: rest
    else if a = c.1 then (a, b) :: rest
    else c :: Memory.set rest a b

/-- `n` cells from `a` on become unwritten (R110). -/
def Memory.erase (m : Memory) (a n : Nat) : Memory :=
  m.filter (fun c => decide (c.1 < a ∨ a + n ≤ c.1))

/-- `MemWrite` (R9): the bytes of `s` at `a`, `a + 1`, and so on. -/
def Memory.writeRange (m : Memory) (a : Nat) (s : List Byte) : Memory :=
  match s with
  | [] => m
  | b :: rest => Memory.writeRange (m.set a b) (a + 1) rest

/-- Reads one cell; `d` counts the draws. An unwritten cell returns a fresh free byte and stays unwritten (R14). -/
def readCell (m : Memory) (a d : Nat) : Byte × Nat :=
  match m.get a with
  | some b => (b, d)
  | none => (Config.freeByte d, d + 1)

/-- `MemRead` (R9): `n` bytes from `a` on in ascending order, and the count of draws after it. -/
def readRange (m : Memory) (a n d : Nat) : List Byte × Nat :=
  match n with
  | 0 => ([], d)
  | k + 1 =>
    let first := readCell m a d
    let rest := readRange m (a + 1) k first.2
    (first.1 :: rest.1, rest.2)

/-- `BE32` (R9, R42): the most significant byte first. -/
def be32 (v : Word) : List Byte :=
  [v.extractLsb' 24 8, v.extractLsb' 16 8, v.extractLsb' 8 8, v.extractLsb' 0 8]

/-- A value a rule has shown to be below 2^32, stored in a register (R9). -/
def toWord (n : Nat) : Word := BitVec.ofNat 32 n

/-! ### The command lifecycle -/

/-- The operand registers, sampled at acceptance (R30, R95). -/
def sampleOperands (s : State) : Operands :=
  ⟨s.offset, s.length, s.src, s.tag, s.data, s.crcAcc⟩

/-- Ends the command with an error (`raise CmdError(e)`, R92): `STATUS` changes, the command leaves, and nothing else. -/
def raiseCmdError (e : CmdError) (s : State) : State :=
  { s with status := Status.failed e, inFlight := none }

/-- Ends the command without error (R96); the writes of its pseudocode have been made in `s`. -/
def completeCmd (s : State) : State :=
  { s with status := s.status.completed, inFlight := none }

/-- A host write of `w` to `STATUS` (R28); with bit 2 set it is the return from an error (R97). -/
def writeStatus (w : Word) (s : State) : State :=
  { s with status := s.status.hostWrite w }

/-- Puts a command in flight with the operands of this moment and `wait` host moves of latency (R95). -/
def launchCmd (w : Word) (wait : Nat) (s : State) : State :=
  { s with status := s.status.accepted, inFlight := some ⟨w, sampleOperands s, wait⟩ }

/-- A completed host write of `w` to `CMD` (R95): discarded while `ERR = 1`; otherwise accepted, with the next latency
of `LAT`. -/
def acceptCmd (w : Word) (s : State) : State :=
  if s.status.err then s
  else { launchCmd w (s.lat.headD 0) s with lat := s.lat.tail }

end Sys2Proof.Machine
end

