-- ==== Sys2Proof/Machine/Operands.lean ====
section
/-! DEFINITION. The operands of commands (30_encoding.md R61) and the range conditions over them (60_exceptions.md R90,
R91), in unbounded arithmetic (00_scope.md R8). -/

namespace Sys2Proof.Machine

/-- The operands a command runs on: the ones sampled at its acceptance (R30, R61). With no command in flight, they are
the registers as they stand, which is what acceptance would sample (DESIGN CHOICE, log entry 6). -/
def operands (s : State) : Operands :=
  match s.inFlight with
  | some c => c.ops
  | none => sampleOperands s

/-- `o = x[OFFSET]`, as an unbounded integer (R8). -/
def Operands.o (x : Operands) : Nat := x.offset.toNat

/-- `n = x[LENGTH]`, as an unbounded integer (R8). -/
def Operands.n (x : Operands) : Nat := x.length.toNat

/-- `s = x[SRC]`, as an unbounded integer (R8). -/
def Operands.s (x : Operands) : Nat := x.src.toNat

/-- `o + n > BUF_SIZE`: `BOUNDS` of `CRC_FEED` and `CHECKSUM` (R90). -/
def rangeLeaves (p : Config.Params) (x : Operands) : Bool := decide (p.bufSize < x.o + x.n)

/-- `o + 12 + n`, the offset just past the record (R75). -/
def recordEnd (x : Operands) : Nat := x.o + Config.recordFraming + x.n

/-- `o + 12 + n > BUF_SIZE`: the record does not fit (R90). -/
def recordLeaves (p : Config.Params) (x : Operands) : Bool := decide (p.bufSize < recordEnd x)

/-- `s = o + 8`: the payload is already in place (R77, R78). -/
def payloadInPlace (x : Operands) : Bool := decide (x.s = x.o + 8)

/-- `n > 0` and not in place: the payload is copied from `SRC` (R77, R79). -/
def payloadCopied (x : Operands) : Bool := decide (0 < x.n) && !payloadInPlace x

/-- `s + n > BUF_SIZE`: the source of a copied payload does not fit (R90). -/
def sourceLeaves (p : Config.Params) (x : Operands) : Bool := decide (p.bufSize < x.s + x.n)

/-- `[s, s+n)` and `[o, o+12+n)` share a byte: `OVERLAP` of a copied payload (R91). -/
def sourceMeetsRecord (x : Operands) : Bool := decide (x.s < recordEnd x) && decide (x.o < x.s + x.n)

/-- Where the payload is read from (R77). -/
def payloadStart (x : Operands) : Nat := if payloadInPlace x then x.o + 8 else x.s

/-- `o + 4`, the offset just past a `PUT32` field (R81). -/
def fieldEnd (x : Operands) : Nat := x.o + 4

/-- `o + 4 > BUF_SIZE`: the field does not fit (R90). -/
def fieldLeaves (p : Config.Params) (x : Operands) : Bool := decide (p.bufSize < fieldEnd x)

/-- The first check of `WRITE_RECORD` that fails, in the order of R93. -/
def recordError (p : Config.Params) (x : Operands) : Option CmdError :=
  if recordLeaves p x then some .bounds
  else if payloadCopied x && sourceLeaves p x then some .bounds
  else if payloadCopied x && sourceMeetsRecord x then some .overlap
  else none

end Sys2Proof.Machine
end

