-- ==== Sys2Proof/Machine/Control.lean ====
section
/-! DEFINITION. The control command (42_control.md R84) and what an illegal word does (R85). -/

namespace Sys2Proof.Machine

/-- `NOP` (R84): nothing between acceptance and completion. -/
def execNop (s : State) : Host.Outcome State Fault Refusal := .next (completeCmd s)

/-- An illegal word in flight (R62, R85): `ILLEGAL_CMD`, before any operand is read. -/
def execIllegal (s : State) : Host.Outcome State Fault Refusal := .next (raiseCmdError .illegalCmd s)

end Sys2Proof.Machine
end

