-- ==== Sys2Proof/Machine/Crc.lean ====
section
/-! DEFINITION. The CRC-32 function (40_crc.md R67 to R69) and the checksum commands (R71 to R74). -/

namespace Sys2Proof.Machine

/-- One bit of the reflected CRC: shift right, and if the bit shifted out was 1, exclusive-or the polynomial (R67; the
spec takes the step from general knowledge: PRESUMED, log entry 12). -/
def crcShift (c : Word) : Word :=
  if c.getLsbD 0 then (c >>> 1) ^^^ Config.crcPoly else c >>> 1

/-- `k` bits of the CRC (R67). -/
def crcShifts (k : Nat) (c : Word) : Word :=
  match k with
  | 0 => c
  | j + 1 => crcShifts j (crcShift c)

/-- `crc_byte` (R67). -/
def crcByte (c : Word) (b : Byte) : Word := crcShifts 8 (c ^^^ b.setWidth 32)

/-- `crc_update` (R68): the bytes in index order. -/
def crcUpdate (c : Word) (s : List Byte) : Word :=
  match s with
  | [] => c
  | b :: rest => crcUpdate (crcByte c b) rest

/-- The final complement (R68). -/
def crcFinish (c : Word) : Word := c ^^^ Config.crcFinalXor

/-- `crc32` (R68). -/
def crc32 (s : List Byte) : Word := crcFinish (crcUpdate Config.crcInit s)

/-- An entry of the lookup table an implementation may have, `T[n]` (R31, R69). It is no state. -/
def crcTable (n : Byte) : Word := crcByte 0#32 n

/-- The table-driven byte step (R69). -/
def crcByteByTable (c : Word) (b : Byte) : Word :=
  crcTable ((c ^^^ b.setWidth 32).setWidth 8) ^^^ (c >>> 8)

/-- `CRC_INIT` (R71). -/
def execCrcInit (s : State) : Host.Outcome State Fault Refusal :=
  .next (completeCmd { s with crcAcc := Config.crcInit })

/-- `CRC_FEED` (R72). -/
def execCrcFeed (s : State) : Host.Outcome State Fault Refusal :=
  let x := operands s
  if rangeLeaves s.params x then .next (raiseCmdError .bounds s)
  else
    let bytes := readRange s.buf x.o x.n s.draws
    .next (completeCmd { s with crcAcc := crcUpdate x.crcAcc bytes.1, draws := bytes.2 })

/-- `CRC_FINAL` (R73). -/
def execCrcFinal (s : State) : Host.Outcome State Fault Refusal :=
  .next (completeCmd { s with result := crcFinish (operands s).crcAcc })

/-- `CHECKSUM` (R74); its CRC runs in the private datapath (R30). -/
def execChecksum (s : State) : Host.Outcome State Fault Refusal :=
  let x := operands s
  if rangeLeaves s.params x then .next (raiseCmdError .bounds s)
  else
    let bytes := readRange s.buf x.o x.n s.draws
    let c := crcUpdate Config.crcInit bytes.1
    .next (completeCmd { s with crcPriv := c, result := crcFinish c, draws := bytes.2 })

end Sys2Proof.Machine
end

