-- ==== Sys2Proof/Machine/Marshal.lean ====
section
/-! DEFINITION. The record marshalling commands (41_marshal.md R75 to R81). -/

namespace Sys2Proof.Machine

/-- `OFFSET` after a command that advances it when `adv` (30_encoding.md R58; R80, R81). -/
def advanceOffset (adv : Bool) (s : State) (next : Word) : Word := if adv then next else s.offset

/-- `BUF` after the four writes of a record: length field, tag, payload, checksum field, in the order of the steps
(R75, R77). -/
def writeRecordBytes (m : Memory) (x : Operands) (payload : List Byte) (sum : Word) : Memory :=
  let m1 := m.writeRange x.o (be32 x.length)
  let m2 := m1.writeRange (x.o + 4) (be32 x.tag)
  let m3 := m2.writeRange (x.o + 8) payload
  m3.writeRange (x.o + 8 + x.n) (be32 sum)

/-- `WRITE_RECORD` (R77 to R80): the payload is read before any write. -/
def execWriteRecord (adv : Bool) (s : State) : Host.Outcome State Fault Refusal :=
  let x := operands s
  match recordError s.params x with
  | some e => .next (raiseCmdError e s)
  | none =>
    let payload := readRange s.buf (payloadStart x) x.n s.draws
    let c := crcUpdate Config.crcInit (be32 x.tag ++ payload.1)
    let nextOffset := toWord (recordEnd x)
    .next (completeCmd
      { s with
        buf := writeRecordBytes s.buf x payload.1 (crcFinish c)
        draws := payload.2
        crcPriv := c
        result := crcFinish c
        next := nextOffset
        offset := advanceOffset adv s nextOffset })

/-- `PUT32` (R81). -/
def execPut32 (adv : Bool) (s : State) : Host.Outcome State Fault Refusal :=
  let x := operands s
  if fieldLeaves s.params x then .next (raiseCmdError .bounds s)
  else
    let nextOffset := toWord (fieldEnd x)
    .next (completeCmd
      { s with
        buf := s.buf.writeRange x.o (be32 x.data)
        next := nextOffset
        offset := advanceOffset adv s nextOffset })

end Sys2Proof.Machine
end

