-- ==== Sys2Proof/Machine/Dispatch.lean ====
section
/-! DEFINITION. The meaning of every command of spec/opcode_table.json, one arm each. -/

namespace Sys2Proof.Machine

-- The engine runs a decoded command to its completion, with or without an error (60_exceptions.md R92, R96).
def exec (i : Instr) (s : State) : Host.Outcome State Fault Refusal :=
  match i with
  | .nop => Sys2Proof.Machine.execNop s
  | .crcInit => Sys2Proof.Machine.execCrcInit s
  | .crcFeed => Sys2Proof.Machine.execCrcFeed s
  | .crcFinal => Sys2Proof.Machine.execCrcFinal s
  | .checksum => Sys2Proof.Machine.execChecksum s
  | .writeRecord adv => Sys2Proof.Machine.execWriteRecord adv s
  | .put32 adv => Sys2Proof.Machine.execPut32 adv s

end Sys2Proof.Machine
end

