-- ==== Sys2Proof/Machine/Port.lean ====
section
/-! DEFINITION. What a host transfer does when it completes (20_memory.md R36 to R40, R47) and when it is held
(70_reset_and_hazards.md R113, R114). -/

namespace Sys2Proof.Machine

/-- The value a host reads from a register (R17, R26, R27): `CMD` reads 0. -/
def readReg (r : Reg) (s : State) : Word :=
  match r with
  | .cmd => 0x00000000#32
  | .status => s.status.word
  | .offset => s.offset
  | .length => s.length
  | .src => s.src
  | .tag => s.tag
  | .data => s.data
  | .crcAcc => s.crcAcc
  | .result => s.result
  | .next => s.next

/-- A host write to a register (R18 to R28): `CMD` issues a command, `STATUS` is write-1-to-clear, `RESULT` and `NEXT`
ignore it. -/
def writeReg (r : Reg) (v : Word) (s : State) : State :=
  match r with
  | .cmd => acceptCmd v s
  | .status => writeStatus v s
  | .offset => { s with offset := v }
  | .length => { s with length := v }
  | .src => { s with src := v }
  | .tag => { s with tag := v }
  | .data => { s with data := v }
  | .crcAcc => { s with crcAcc := v }
  | .result => s
  | .next => s

/-- A host write to a byte of `BUF` takes bits 7:0 (R38). -/
def writeCell (i : Nat) (v : Word) (s : State) : State :=
  { s with buf := s.buf.set i (v.setWidth 8) }

/-- A transfer that is performed: the state after it and what the port shows in its completion cycle. A bus error
writes nothing and reads as 0 (R40). -/
def completeTransfer (t : Transfer) (s : State) : State :=
  match target s.params t, t.we with
  | .reg r, true => { writeReg r t.wdata s with port := some ⟨none, false⟩ }
  | .reg r, false => { s with port := some ⟨some (readReg r s), false⟩ }
  | .cell i, true => { writeCell i t.wdata s with port := some ⟨none, false⟩ }
  | .cell i, false =>
    let read := readCell s.buf i s.draws
    { s with draws := read.2, port := some ⟨some (read.1.setWidth 32), false⟩ }
  | .busError, true => { s with port := some ⟨none, true⟩ }
  | .busError, false => { s with port := some ⟨some 0#32, true⟩ }

/-- While a command is in flight every transfer but a read of `STATUS` is held (R113). -/
def held (t : Transfer) (s : State) : Bool := s.status.busy && !t.isStatusRead

/-- The value the last completed transfer returned, when it was an `R32` (30_encoding.md R64). -/
def lastRead (t : Transfer) (s : State) : Word :=
  if t.isRegRead then
    match s.port with
    | some ⟨some v, _⟩ => v
    | _ => s.host.lastR32
  else s.host.lastR32

/-- The host goes on to its next line. -/
def nextLine (s : State) : State := { s with host := { s.host with line := s.host.line + 1 } }

/-- The host requests a transfer: held, it stays at its line and nothing completes (R35, R113); otherwise the transfer
completes and the host goes on, keeping the value of an `R32`. A bus error (`h_err = 1`) is a completion like any other
here: R40 leaves what the host does then to the host, and this host goes on to its next line (DESIGN CHOICE, log
entry 19). -/
def hostTransfer (t : Transfer) (s : State) : State :=
  if held t s then s
  else
    let s1 := completeTransfer t s
    nextLine { s1 with host := { s1.host with lastR32 := lastRead t s1 } }

/-- `BNZ` (R64): the host goes to the label if the last `R32` value and the mask share a bit. -/
def hostBranch (mask : Word) (l : Label) (s : State) : Host.Outcome State Fault Refusal :=
  if s.host.lastR32 &&& mask = 0#32 then .next (nextLine s)
  else
    match findLabel l s.host.script 0 with
    | some k => .next { s with host := { s.host with line := k } }
    | none => .fault (.undefinedLabel l)

/-- The line the host is at; none when its script has ended. -/
def currentLine (s : State) : Option ScriptLine := s.host.script[s.host.line]?

/-- One move of the host (R15): its line is a transfer, a label or a `BNZ`. A host whose script has ended requests
nothing. -/
def hostMove (s : State) : Host.Outcome State Fault Refusal :=
  match currentLine s with
  | none => .next s
  | some line =>
    match line.act with
    | .transfer t => .next (hostTransfer t s)
    | .pass => .next (nextLine s)
    | .branch mask l => hostBranch mask l s

end Sys2Proof.Machine
end

