-- ==== Sys2Proof/Machine/Reset.lean ====
section
/-! DEFINITION. What a reset does to CRM (70_reset_and_hazards.md R106 to R110). -/

namespace Sys2Proof.Machine

/-- The bytes of `BUF` a command that a reset interrupts could have written (R110), as an offset and a count: the record
of a `WRITE_RECORD` whose record range passed its check, the field of a `PUT32` that fits (DEDUCED, log entry 8), none for the
other commands and for an illegal word. -/
def writableRange (p : Config.Params) (c : InFlight) : Nat × Nat :=
  match decode c.word with
  | .command (.writeRecord _) =>
    if recordLeaves p c.ops then (0, 0) else (c.ops.o, Config.recordFraming + c.ops.n)
  | .command (.put32 _) => if fieldLeaves p c.ops then (0, 0) else (c.ops.o, 4)
  | .command .nop => (0, 0)
  | .command .crcInit => (0, 0)
  | .command .crcFeed => (0, 0)
  | .command .crcFinal => (0, 0)
  | .command .checksum => (0, 0)
  | .illegal _ => (0, 0)

/-- `BUF` after a reset: an idle reset keeps it (R109); a reset that interrupts a command makes the bytes the command
could have written unwritten (R110). -/
def bufAfterReset (s : State) : Memory :=
  match s.inFlight with
  | none => s.buf
  | some c => s.buf.erase (writableRange s.params c).1 (writableRange s.params c).2

/-- A rising edge with `rst_n = 0` (R106, R107): every register takes its reset value and a command in flight is
abandoned. No transfer completes. The host, the draws and the parameters are outside CRM and stay. -/
def resetEdge (s : State) : State :=
  { s with
    status := Status.reset
    offset := 0x00000000#32
    length := 0x00000000#32
    src := 0x00000000#32
    tag := 0x00000000#32
    data := 0x00000000#32
    crcAcc := 0xFFFFFFFF#32
    result := 0x00000000#32
    next := 0x00000000#32
    crcPriv := Config.crcInit
    inFlight := none
    buf := bufAfterReset s }

end Sys2Proof.Machine
end

