-- ==== Sys2Proof/Machine/Step.lean ====
section
/-! DEFINITION. One step of CRM and its host: a rising edge with `rst_n = 0`, the engine's run of the command in flight,
or one move of the host (10_state.md R15; DESIGN CHOICE, log entry 2). -/

namespace Sys2Proof.Machine

/-- The start of a step: the sample of `rst_n` is taken and no transfer has completed yet. -/
def beginStep (s : State) : State := { s with rstN := s.rstN.tail, port := none }

/-- `rst_n` is 0 at this step (R106). -/
def resetNow (s : State) : Bool := s.rstN.head? == some false

/-- The engine decodes the word of the command in flight and runs it (R95). -/
def engineMove (c : InFlight) (s : State) : Host.Outcome State Fault Refusal :=
  match decode c.word with
  | .command i => exec i s
  | .illegal _ => execIllegal s

/-- One host move passes while the command stays in flight (R115). -/
def waitMove (c : InFlight) (k : Nat) (s : State) : State := { s with inFlight := some { c with wait := k } }

/-- One step. Reset comes first (R106). With a command in flight whose latency has passed the engine runs it; otherwise
the host moves. -/
def step (s : State) : Host.Outcome State Fault Refusal :=
  if resetNow s then .next (resetEdge (beginStep s))
  else
    match s.inFlight with
    | none => hostMove (beginStep s)
    | some c =>
      match c.wait with
      | 0 => engineMove c (beginStep s)
      | k + 1 => hostMove (waitMove c k (beginStep s))

/-- `s` with a command word in flight, accepted with the operand registers as they stand, no error pending and no latency
left: the very next step runs it. CRM fetches nothing (10_state.md R16, R53); the in-flight word is what its engine
decodes (DESIGN CHOICE, log entry 7). -/
def State.withFetchWord (s : State) (nbits w : Nat) : State :=
  { launchCmd (tableWord nbits w) 0 { s with status := Status.reset } with rstN := [] }

end Sys2Proof.Machine
end

