-- ==== Sys2Proof/Safety.lean ====
section
/-! DEFINITION. What holds of every state CRM can be in, when a command's result is defined, and when a run has ended
well, in the terms the statements use. -/

namespace Sys2Proof.Machine

/-- Every written cell lies inside `BUF` (10_state.md R13; 70_reset_and_hazards.md R117: CRM never writes outside it). -/
abbrev CellsInside (s : State) : Prop := ∀ c ∈ s.buf, c.1 < s.params.bufSize

/-- `ERRCODE` is 0 whenever `ERR` is 0, and 1, 2 or 3 whenever `ERR` is 1 (R27). -/
abbrev Status.codeLegal (st : Status) : Prop :=
  (st.err = false ∧ st.errcode = 0#4) ∨
    (st.err = true ∧ (st.errcode = 1#4 ∨ st.errcode = 2#4 ∨ st.errcode = 3#4))

/-- `BUSY` and `DONE` are never both 1 (R27), and a command is in flight only with `ERR = 0` (R95). -/
abbrev Status.flagsLegal (st : Status) : Prop := st.busy = true → st.done = false ∧ st.err = false

/-- The in-flight command is present exactly while `BUSY = 1` (R30). -/
abbrev FlightIsBusy (s : State) : Prop := s.inFlight.isSome = s.status.busy

/-- The operand registers cannot change while a command executes (20_memory.md R53): they still hold what acceptance
sampled. -/
abbrev OperandsHeld (s : State) : Prop := operands s = sampleOperands s

/-- The invariant of the machine. -/
abbrev Consistent (s : State) : Prop :=
  s.params.legal ∧ s.buf.wf ∧ CellsInside s ∧ s.status.codeLegal ∧ s.status.flagsLegal ∧
    FlightIsBusy s ∧ OperandsHeld s

/-- Every cell of a range is written (R14). -/
abbrev RangeWritten (m : Memory) (a n : Nat) : Prop := ∀ k, k < n → (m.get (a + k)).isSome = true

/-- Every byte a command reads is written, which its host sees to (70_reset_and_hazards.md R112, item 1). -/
def Prepared (i : Instr) (s : State) : Prop :=
  match i with
  | .nop => True
  | .crcInit => True
  | .crcFeed => RangeWritten s.buf (operands s).o (operands s).n
  | .crcFinal => True
  | .checksum => RangeWritten s.buf (operands s).o (operands s).n
  | .writeRecord _ => RangeWritten s.buf (payloadStart (operands s)) (operands s).n
  | .put32 _ => True

/-- A run has ended: the script's last line is done and no command is in flight (R118). -/
abbrev Finished (s : State) : Prop := currentLine s = none ∧ s.status.busy = false

/-- A run has ended and no command of it failed (R118). -/
abbrev FinishedWell (s : State) : Prop := Finished s ∧ s.status.err = false

/-- `rst_n` is 1 at each of the next `k` steps. -/
abbrev NoResetFor (k : Nat) (s : State) : Prop := false ∉ s.rstN.take k

/-- The host's script defines every label it goes to. -/
abbrev LabelsResolve (s : State) : Prop := labelsResolve s.host.script = true

/-- What a host sets up for one record of a chain: `TAG`, `SRC` and `LENGTH` (the `RECORD` pseudo-instruction of
30_encoding.md R65). -/
structure RecordArgs where
  tag : Word
  src : Word
  length : Word
  deriving DecidableEq, Repr

/-- Consecutive `WRITE_RECORD.ADV` commands, each with its own operands (41_marshal.md R80, R82). -/
def writeChain (records : List RecordArgs) (s : State) : Host.Outcome State Fault Refusal :=
  match records with
  | [] => .next s
  | r :: rest =>
    match exec (.writeRecord true) { s with tag := r.tag, src := r.src, length := r.length } with
    | .next t => writeChain rest t
    | .fault e => .fault e
    | .refused e => .refused e

/-- The bytes a chain of records takes: the sum of `12 + n` (R82). -/
def chainBytes (records : List RecordArgs) : Nat :=
  match records with
  | [] => 0
  | r :: rest => Config.recordFraming + r.length.toNat + chainBytes rest

end Sys2Proof.Machine
end

