-- ==== Sys2Proof/Certificates/Slice0/Obligations.lean ====
section
/-! DEFINITION. The statements about CRM for the provers. Each docstring names the rule of spec/ it comes from. The values
of status words are written out as the rules give them, not with the model's own functions, wherever the model has one. -/

open Sys2Proof Sys2Proof.Machine

/-! ### Encoding -/

/-- R60: the legal command words are exactly nine, each with the spelling of the table; every other word is no command. -/
def Obligations.LegalWordsAreExactlyTheNine : Prop :=
  ∀ (w : Word) (text : String),
    (∃ i, decode w = .command i ∧ i.spelling = text) ↔
      (w, text) ∈
        [ (0x00000000#32, "NOP"), (0x00000001#32, "CRC_INIT"), (0x00000002#32, "CRC_FEED"),
          (0x00000003#32, "CRC_FINAL"), (0x00000004#32, "CHECKSUM"), (0x00000005#32, "WRITE_RECORD"),
          (0x00000105#32, "WRITE_RECORD.ADV"), (0x00000006#32, "PUT32"), (0x00000106#32, "PUT32.ADV") ]

/-- Decoding and encoding agree in both directions: a command is read back from its word, and a word that is a command is
that command's word, so no bit of a word is ignored (R56 to R60). -/
def Obligations.DecodeAndEncodeAgree : Prop :=
  (∀ i : Instr, i.wellFormed = true → decode (encode i) = .command i) ∧
    ∀ (w : Word) (i : Instr), decode w = .command i → encode i = w

/-- Words written out bit by bit from R56 and R57 decode to the commands they stand for, and one word for each way of
being illegal decodes to none. -/
def Obligations.SpecWordsDecode : Prop :=
  decode 0b00000000000000000000000000000000#32 = .command .nop ∧
  decode 0b00000000000000000000000000000001#32 = .command .crcInit ∧
  decode 0b00000000000000000000000000000010#32 = .command .crcFeed ∧
  decode 0b00000000000000000000000000000011#32 = .command .crcFinal ∧
  decode 0b00000000000000000000000000000100#32 = .command .checksum ∧
  decode 0b00000000000000000000000000000101#32 = .command (.writeRecord false) ∧
  decode 0b00000000000000000000000100000101#32 = .command (.writeRecord true) ∧
  decode 0b00000000000000000000000000000110#32 = .command (.put32 false) ∧
  decode 0b00000000000000000000000100000110#32 = .command (.put32 true) ∧
  decode 0b00000000000000000000000000000111#32 = .illegal .reservedOp ∧
  decode 0b00000000000000000000000000010000#32 = .illegal .reservedField ∧
  decode 0b00000000000000000000001000000101#32 = .illegal .reservedField ∧
  decode 0b00000000000000000000000100000000#32 = .illegal .advNotAllowed

/-- R62: the illegal encodings are `OP` 0x7 to 0xF, a nonzero `RSV0` or `RSV1`, and `ADV` with `OP` 0x0 to 0x4; when the
engine runs one, the command ends with code 1 and has no other effect (the step also clears the port's completion and
takes its sample of `rst_n`). Every other word decodes to a command. -/
def Obligations.IllegalWordsEndWithCodeOne : Prop :=
  ∀ w : Word,
    let illegal := 7 ≤ (w.extractLsb' 0 4).toNat ∨ w.extractLsb' 4 4 ≠ 0#4 ∨ w.extractLsb' 9 23 ≠ 0#23 ∨
      (w.getLsbD 8 = true ∧ (w.extractLsb' 0 4).toNat ≤ 4)
    (¬ illegal → ∃ i, decode w = .command i) ∧
    (illegal → ∀ (s : State) (c : InFlight), s.inFlight = some c → c.word = w → c.wait = 0 →
      s.rstN.head? ≠ some false →
      step s = .next
        { s with
          status := ⟨false, true, true, 1#4⟩
          inFlight := none
          port := none
          rstN := s.rstN.tail })

/-! ### The CRC-32 function -/

/-- R69: the table-driven byte step is the bitwise one for every register value and byte, with the entries R69 gives for
checking. -/
def Obligations.TableDrivenCrcIsTheBitwiseCrc : Prop :=
  (∀ (c : Word) (b : Byte),
    crcByte c b = crcByte 0#32 ((c ^^^ b.setWidth 32).setWidth 8) ^^^ (c >>> 8)) ∧
  (∀ (c : Word) (b : Byte), crcByteByTable c b = crcByte c b) ∧
  crcTable 0x00#8 = 0x00000000#32 ∧ crcTable 0x01#8 = 0x77073096#32 ∧ crcTable 0x02#8 = 0xEE0E612C#32 ∧
  crcTable 0x80#8 = 0xEDB88320#32 ∧ crcTable 0xFF#8 = 0x2D02EF8D#32

/-- R70, the laws of empty input and concatenation, for every register value and all byte sequences. -/
def Obligations.CrcOfConcatenation : Prop :=
  (∀ c : Word, crcUpdate c [] = c) ∧ crc32 [] = 0x00000000#32 ∧
    ∀ (c : Word) (a b : List Byte), crcUpdate c (a ++ b) = crcUpdate (crcUpdate c a) b

/-- The published check value of this CRC (R70): the nine bytes "123456789" give 0xCBF4_3926. -/
def Obligations.CrcCheckValue : Prop :=
  crc32 [0x31#8, 0x32#8, 0x33#8, 0x34#8, 0x35#8, 0x36#8, 0x37#8, 0x38#8, 0x39#8] = 0xCBF43926#32

/-- The register after a byte depends on every bit of the register before it and of the byte: for a fixed byte, two
registers give two results, and for a fixed register, two bytes give two results (R67: the step shifts out one bit and
exclusive-ors the polynomial exactly when it is 1, so no bit is lost). -/
def Obligations.CrcByteLosesNothing : Prop :=
  (∀ (c c' : Word) (b : Byte), crcByte c b = crcByte c' b → c = c') ∧
    ∀ (c : Word) (b b' : Byte), crcByte c b = crcByte c b' → b = b'

/-! ### Results of the commands -/

/-- R84: `NOP` completes and changes nothing else. -/
def Obligations.NopOnlyCompletes : Prop :=
  ∀ s : State, exec .nop s =
    .next { s with status := ⟨false, true, s.status.err, s.status.errcode⟩, inFlight := none }

/-- R71: `CRC_INIT` sets `CRC_ACC` to 0xFFFF_FFFF and completes; nothing else changes. -/
def Obligations.CrcInitSetsTheAccumulator : Prop :=
  ∀ s : State, exec .crcInit s =
    .next
      { s with
        crcAcc := 0xFFFFFFFF#32
        status := ⟨false, true, s.status.err, s.status.errcode⟩
        inFlight := none }

/-- R73: `CRC_FINAL` gives the complement of the sampled `CRC_ACC` in `RESULT` and completes; nothing else changes, so
`CRC_ACC` is not changed and a second `CRC_FINAL` gives the same state. -/
def Obligations.CrcFinalComplementsTheAccumulator : Prop :=
  ∀ s : State, ∃ t,
    exec .crcFinal s = .next t ∧
    t = { s with
          result := ~~~(operands s).crcAcc
          status := ⟨false, true, s.status.err, s.status.errcode⟩
          inFlight := none } ∧
    (OperandsHeld s → exec .crcFinal t = .next t)

/-- R72: `CRC_FEED` of a range inside `BUF` advances `CRC_ACC` over bytes that are the written ones of the range, in
ascending order, and completes; only the count of draws changes besides, by one for each unwritten cell (R14). -/
def Obligations.CrcFeedAdvancesOverTheRange : Prop :=
  ∀ s : State, let x := operands s
    x.offset.toNat + x.length.toNat ≤ s.params.bufSize →
    ∃ bytes : List Byte,
      bytes.length = x.length.toNat ∧
      (∀ k b, k < x.length.toNat → s.buf.get (x.offset.toNat + k) = some b → bytes[k]? = some b) ∧
      exec .crcFeed s =
        .next
          { s with
            crcAcc := crcUpdate x.crcAcc bytes
            draws := s.draws +
              ((List.range x.length.toNat).filter (fun k => (s.buf.get (x.offset.toNat + k)).isNone)).length
            status := ⟨false, true, s.status.err, s.status.errcode⟩
            inFlight := none }

/-- R74: `CHECKSUM` of a range inside `BUF` gives the CRC-32 of bytes that are the written ones of the range, in ascending
order, in `RESULT`, and completes. `CRC_ACC` and everything else stays, but for the private datapath, which holds the CRC
before its final complement (R30; that it keeps it is the model's choice, log entry 4), and the count of draws. -/
def Obligations.ChecksumGivesTheCrcOfTheRange : Prop :=
  ∀ s : State, let x := operands s
    x.offset.toNat + x.length.toNat ≤ s.params.bufSize →
    ∃ bytes : List Byte,
      bytes.length = x.length.toNat ∧
      (∀ k b, k < x.length.toNat → s.buf.get (x.offset.toNat + k) = some b → bytes[k]? = some b) ∧
      exec .checksum s =
        .next
          { s with
            result := crc32 bytes
            crcPriv := ~~~(crc32 bytes)
            draws := s.draws +
              ((List.range x.length.toNat).filter (fun k => (s.buf.get (x.offset.toNat + k)).isNone)).length
            status := ⟨false, true, s.status.err, s.status.errcode⟩
            inFlight := none }

/-- R75, R77: a `WRITE_RECORD` whose checks pass completes. `BUF` then holds, byte by byte, the length field, the tag, the
payload and the CRC-32 of tag and payload, both fields big-endian, and every byte outside the record reads as before;
`RESULT` is the checksum, `NEXT` is `o + 12 + n`, `OFFSET` is that with `ADV` and unchanged without; nothing else changes
but the private datapath and the count of draws. The payload is the written bytes at `o + 8` when it is in place and at
`SRC` otherwise. -/
def Obligations.WriteRecordWritesTheRecord : Prop :=
  ∀ (adv : Bool) (s : State), s.params.legal → let x := operands s
    let o := x.offset.toNat
    let n := x.length.toNat
    let src := x.src.toNat
    o + 12 + n ≤ s.params.bufSize →
    (0 < n → src ≠ o + 8 → src + n ≤ s.params.bufSize ∧ (o + 12 + n ≤ src ∨ src + n ≤ o)) →
    ∃ (payload : List Byte) (t : State),
      payload.length = n ∧
      (∀ k b, k < n → s.buf.get ((if src = o + 8 then o + 8 else src) + k) = some b → payload[k]? = some b) ∧
      exec (.writeRecord adv) s = .next t ∧
      (∀ a, t.buf.get a =
        if a < o then s.buf.get a
        else if a < o + 4 then some ((x.length >>> (8 * (3 - (a - o)))).setWidth 8)
        else if a < o + 8 then some ((x.tag >>> (8 * (3 - (a - (o + 4))))).setWidth 8)
        else if a < o + 8 + n then payload[a - (o + 8)]?
        else if a < o + 12 + n then some ((t.result >>> (8 * (3 - (a - (o + 8 + n))))).setWidth 8)
        else s.buf.get a) ∧
      t.result = crc32 ([(x.tag >>> 24).setWidth 8, (x.tag >>> 16).setWidth 8, (x.tag >>> 8).setWidth 8,
        x.tag.setWidth 8] ++ payload) ∧
      t.next.toNat = o + 12 + n ∧
      t = { s with
            buf := t.buf
            draws := t.draws
            crcPriv := t.crcPriv
            result := t.result
            next := t.next
            offset := if adv then t.next else s.offset
            status := ⟨false, true, s.status.err, s.status.errcode⟩
            inFlight := none }

/-- R81: a `PUT32` whose field fits completes. `BUF` holds `DATA` big-endian at `o` to `o + 3` and every other byte reads
as before; `NEXT` is `o + 4`, `OFFSET` is that with `ADV` and unchanged without; nothing else changes. -/
def Obligations.Put32WritesTheField : Prop :=
  ∀ (adv : Bool) (s : State), s.params.legal → let x := operands s
    let o := x.offset.toNat
    o + 4 ≤ s.params.bufSize →
    ∃ t : State,
      exec (.put32 adv) s = .next t ∧
      (∀ a, t.buf.get a =
        if o ≤ a ∧ a < o + 4 then some ((x.data >>> (8 * (3 - (a - o)))).setWidth 8) else s.buf.get a) ∧
      t.next.toNat = o + 4 ∧
      t = { s with
            buf := t.buf
            next := t.next
            offset := if adv then t.next else s.offset
            status := ⟨false, true, s.status.err, s.status.errcode⟩
            inFlight := none }

/-- R80: with `ADV`, a record that is written without error leaves `OFFSET` and `NEXT` both at `o + 12 + n`; without it,
`OFFSET` is unchanged and `NEXT` is that value. -/
def Obligations.AdvanceMovesOffsetToNext : Prop :=
  ∀ (adv : Bool) (s t : State), s.params.legal → s.status.err = false →
    exec (.writeRecord adv) s = .next t → t.status.err = false →
    t.next.toNat = (operands s).offset.toNat + 12 + (operands s).length.toNat ∧
    t.offset = if adv then t.next else s.offset

/-! ### Errors -/

/-- R90: from a state with no error pending, a command ends with `BOUNDS` (code 2) exactly when the table of R90 says, in
unbounded arithmetic; `NOP`, `CRC_INIT` and `CRC_FINAL` never do. -/
def Obligations.BoundsExactlyWhenARangeLeavesBuf : Prop :=
  ∀ (i : Instr) (s : State), s.status.err = false → s.status.errcode = 0#4 →
    let x := operands s
    let o := x.offset.toNat
    let n := x.length.toNat
    let src := x.src.toNat
    let size := s.params.bufSize
    (∃ t, exec i s = .next t ∧ t.status.errcode = 2#4) ↔
      match i with
      | .nop => False
      | .crcInit => False
      | .crcFeed => o + n > size
      | .crcFinal => False
      | .checksum => o + n > size
      | .writeRecord _ => o + 12 + n > size ∨ (0 < n ∧ src ≠ o + 8 ∧ src + n > size)
      | .put32 _ => o + 4 > size

/-- R91: from a state with no error pending, a command ends with `OVERLAP` (code 3) exactly when it is a `WRITE_RECORD`,
both `BOUNDS` conditions passed, and the half-open ranges of a copied payload and of the record share a byte. -/
def Obligations.OverlapExactlyWhenSourceMeetsRecord : Prop :=
  ∀ (i : Instr) (s : State), s.status.err = false → s.status.errcode = 0#4 →
    let x := operands s
    let o := x.offset.toNat
    let n := x.length.toNat
    let src := x.src.toNat
    let size := s.params.bufSize
    (∃ t, exec i s = .next t ∧ t.status.errcode = 3#4) ↔
      (∃ adv, i = .writeRecord adv) ∧ o + 12 + n ≤ size ∧ src + n ≤ size ∧
        0 < n ∧ src ≠ o + 8 ∧ ∃ a, (src ≤ a ∧ a < src + n) ∧ (o ≤ a ∧ a < o + 12 + n)

/-- R92, R94: a command in flight that ends with an error (an illegal word too) has written nothing but `STATUS`:
`BUSY = 0`, `DONE = 1`, `ERR = 1`, `ERRCODE` is 1, 2 or 3, the command has left, and every byte of `BUF`, every register and
the host stay. -/
def Obligations.FailedCommandWritesOnlyStatus : Prop :=
  ∀ (s t : State) (c : InFlight), s.status.err = false → s.inFlight = some c → c.wait = 0 →
    s.rstN.head? ≠ some false → step s = .next t → t.status.err = true →
    ∃ code, (code = 1#4 ∨ code = 2#4 ∨ code = 3#4) ∧
      t = { s with
            status := ⟨false, true, true, code⟩
            inFlight := none
            port := none
            rstN := s.rstN.tail }

/-- R93: a command reports exactly one error, the first that applies: an illegal word reports code 1 whatever its
operands, and a `WRITE_RECORD` whose record leaves `BUF` reports code 2 whatever its source. -/
def Obligations.FirstErrorIsReported : Prop :=
  ∀ (s : State) (c : InFlight), s.status.err = false → s.inFlight = some c → c.wait = 0 →
    s.rstN.head? ≠ some false →
    ((∃ why, decode c.word = .illegal why) → ∃ t, step s = .next t ∧ t.status.errcode = 1#4) ∧
    (∀ adv, decode c.word = .command (.writeRecord adv) →
      let o := c.ops.offset.toNat
      let n := c.ops.length.toNat
      let src := c.ops.src.toNat
      let copied := 0 < n ∧ src ≠ o + 8
      (o + 12 + n > s.params.bufSize → ∃ t, step s = .next t ∧ t.status.errcode = 2#4) ∧
      (o + 12 + n ≤ s.params.bufSize → copied → src + n > s.params.bufSize →
        ∃ t, step s = .next t ∧ t.status.errcode = 2#4) ∧
      (o + 12 + n ≤ s.params.bufSize → copied → src + n ≤ s.params.bufSize →
        src < o + 12 + n → o < src + n → ∃ t, step s = .next t ∧ t.status.errcode = 3#4))

/-- R98: while `ERR = 1` no step puts a command in flight and `ERRCODE` stays, until a reset or a completed host write to
`STATUS` with bit 2 set, which are the only steps that end the error. -/
def Obligations.OnlyClearOrResetEndsAnError : Prop :=
  ∀ s t : State, Consistent s → s.status.err = true → step s = .next t →
    t.inFlight = none ∧
    ((t.status.err = true ∧ t.status.errcode = s.status.errcode) ∨
      (t.status.err = false ∧ t.status.errcode = 0#4 ∧
        (s.rstN.head? = some false ∨
          ∃ line tr, currentLine s = some line ∧ line.act = .transfer tr ∧ tr.we = true ∧
            tr.addr = 0x04#32 ∧ tr.size = .word ∧ tr.wdata.getLsbD 2 = true)))

/-- R97: a `STATUS` write with bit 2 set clears `ERR` and `ERRCODE` and restores and changes nothing else but `DONE` by its
own bit, and the `CMD` write after it is accepted with the operand registers of the failed command. -/
def Obligations.ReturnFromAnError : Prop :=
  ∀ (s : State) (v w : Word), v.getLsbD 2 = true →
    let cleared := completeTransfer ⟨true, 0x04#32, .word, v⟩ s
    cleared = { s with
                status := ⟨s.status.busy, s.status.done && !v.getLsbD 1, false, 0#4⟩
                port := some ⟨none, false⟩ } ∧
    ∃ k, (completeTransfer ⟨true, 0x00#32, .word, w⟩ cleared).inFlight =
      some ⟨w, ⟨s.offset, s.length, s.src, s.tag, s.data, s.crcAcc⟩, k⟩

/-! ### Which command writes what -/

/-- R17, column "Written by commands" (and R18 to R25, R32): a command writes `LENGTH`, `SRC`, `TAG` and `DATA` never,
`OFFSET` only as `WRITE_RECORD` or `PUT32` with `ADV`, `CRC_ACC` only as `CRC_INIT` or `CRC_FEED`, `RESULT` only as
`CRC_FINAL`, `CHECKSUM` or `WRITE_RECORD`, `NEXT` and `BUF` only as `WRITE_RECORD` or `PUT32`; it changes no parameter,
nothing of the host and nothing of the port. That the private CRC register changes only by `CHECKSUM` and `WRITE_RECORD` is
the model's choice (log entry 4). -/
def Obligations.CommandsWriteOnlyTheirRegisters : Prop :=
  ∀ (i : Instr) (s t : State), exec i s = .next t →
    t.length = s.length ∧ t.src = s.src ∧ t.tag = s.tag ∧ t.data = s.data ∧
    (t.offset ≠ s.offset → i = .writeRecord true ∨ i = .put32 true) ∧
    (t.crcAcc ≠ s.crcAcc → i = .crcInit ∨ i = .crcFeed) ∧
    (t.result ≠ s.result → i = .crcFinal ∨ i = .checksum ∨ ∃ adv, i = .writeRecord adv) ∧
    (t.next ≠ s.next → (∃ adv, i = .writeRecord adv) ∨ ∃ adv, i = .put32 adv) ∧
    (t.buf ≠ s.buf → (∃ adv, i = .writeRecord adv) ∨ ∃ adv, i = .put32 adv) ∧
    (t.crcPriv ≠ s.crcPriv → i = .checksum ∨ ∃ adv, i = .writeRecord adv) ∧
    t.params = s.params ∧ t.host = s.host ∧ t.port = s.port ∧ t.rstN = s.rstN ∧ t.lat = s.lat ∧
    t.inFlight = none ∧ t.status.busy = false ∧ t.status.done = true

/-- R32: no step changes the parameters. -/
def Obligations.NoStepChangesTheParameters : Prop :=
  ∀ s t : State, step s = .next t → t.params = s.params

/-! ### The host port -/

/-- R37 to R40: a transfer gets a bus error exactly when it is neither an aligned word to a register at or below 0x24 nor a
byte inside the buffer window; it then changes no state of CRM and a read returns 0. A transfer that is performed has no
bus error and returns data exactly when it is a read. -/
def Obligations.BusErrorsAreExactlyTheUnmappedTransfers : Prop :=
  ∀ (tr : Transfer) (s : State),
    let toRegister := tr.size = .word ∧ tr.addr.toNat % 4 = 0 ∧ tr.addr.toNat ≤ 0x24
    let toCell := tr.size = .byte ∧ 0x80000000 ≤ tr.addr.toNat ∧ tr.addr.toNat < 0x80000000 + s.params.bufSize
    (¬ toRegister → ¬ toCell →
      completeTransfer tr s = { s with port := some ⟨if tr.we then none else some 0#32, true⟩ }) ∧
    (toRegister ∨ toCell →
      ∃ d, (completeTransfer tr s).port = some ⟨d, false⟩ ∧ (d.isSome = true ↔ tr.we = false))

/-- R38: in the buffer window a byte write stores `h_wdata[7:0]` and changes no other byte and nothing else; a byte read
returns the byte on bits 7:0 with 0 above, whatever the alignment, and changes nothing (of a cell that is not written, R14
leaves the byte open and a draw is counted); every other size gets a bus error. -/
def Obligations.BufferWindowMovesBytes : Prop :=
  ∀ (s : State) (i : Nat) (v : Word), i < s.params.bufSize → s.params.legal →
    let a : Word := BitVec.ofNat 32 (0x80000000 + i)
    (∃ m, completeTransfer ⟨true, a, .byte, v⟩ s = { s with buf := m, port := some ⟨none, false⟩ } ∧
      ∀ j, m.get j = if j = i then some (v.extractLsb' 0 8) else s.buf.get j) ∧
    (∃ b d, completeTransfer ⟨false, a, .byte, v⟩ s = { s with draws := d, port := some ⟨some (0#24 ++ b), false⟩ } ∧
      ∀ c, s.buf.get i = some c → b = c ∧ d = s.draws) ∧
    (∀ we size, size ≠ .byte →
      completeTransfer ⟨we, a, size, v⟩ s = { s with port := some ⟨if we then none else some 0#32, true⟩ })

/-- R14: a host read of an unwritten cell inside `BUF` returns a drawn byte and leaves the cell unwritten; the next read of
it is another draw. -/
def Obligations.UnwrittenCellIsDrawnAtEachRead : Prop :=
  ∀ (s : State) (i : Nat), i < s.params.bufSize → s.params.legal → s.buf.get i = none →
    let rd : Transfer := ⟨false, BitVec.ofNat 32 (0x80000000 + i), .byte, 0#32⟩
    let t := completeTransfer rd s
    t = { s with draws := s.draws + 1, port := some ⟨some (0#24 ++ Config.freeByte s.draws), false⟩ } ∧
    (completeTransfer rd t).port = some ⟨some (0#24 ++ Config.freeByte (s.draws + 1)), false⟩

/-- R17, R18 to R26, R47: the register map. Each name has its offset; at its offset, written out, a word write stores into
its register and changes nothing else (`RESULT` and `NEXT` ignore it), and a word read returns its register (`CMD` reads 0).
So a word write to `OFFSET`, `LENGTH`, `SRC`, `TAG`, `DATA` or `CRC_ACC` is read back and changes no other register. (What
`STATUS` reads as, and what writes to `STATUS` and `CMD` do, is said below.) -/
def Obligations.RegistersReadBackWhatIsStored : Prop :=
  ∀ (r r' : Reg) (v : Word) (s : State),
    let t := completeTransfer ⟨true, r.addr, .word, v⟩ s
    let back (q : Reg) (u : State) : Option Completion := (completeTransfer ⟨false, q.addr, .word, 0#32⟩ u).port
    (r ∈ [Reg.offset, .length, .src, .tag, .data, .crcAcc] →
      back r t = some ⟨some v, false⟩ ∧ (r' ≠ r → back r' t = back r' s) ∧ t.buf = s.buf ∧ t.inFlight = s.inFlight) ∧
    (r = .result ∨ r = .next → t = { s with port := some ⟨none, false⟩ }) ∧
    back .cmd s = some ⟨some 0x00000000#32, false⟩ ∧
    [Reg.cmd, .status, .offset, .length, .src, .tag, .data, .crcAcc, .result, .next].map Reg.addr =
      [0x00#32, 0x04#32, 0x08#32, 0x0C#32, 0x10#32, 0x14#32, 0x18#32, 0x1C#32, 0x20#32, 0x24#32] ∧
    (let written (a : Word) (u : State) : Prop :=
      completeTransfer ⟨true, a, .word, v⟩ s = { u with port := some ⟨none, false⟩ }
    written 0x08#32 { s with offset := v } ∧ written 0x0C#32 { s with length := v } ∧
      written 0x10#32 { s with src := v } ∧ written 0x14#32 { s with tag := v } ∧
      written 0x18#32 { s with data := v } ∧ written 0x1C#32 { s with crcAcc := v } ∧
      written 0x20#32 s ∧ written 0x24#32 s) ∧
    (let reads (a w : Word) : Prop :=
      completeTransfer ⟨false, a, .word, v⟩ s = { s with port := some ⟨some w, false⟩ }
    reads 0x00#32 0x00000000#32 ∧ reads 0x08#32 s.offset ∧ reads 0x0C#32 s.length ∧ reads 0x10#32 s.src ∧
      reads 0x14#32 s.tag ∧ reads 0x18#32 s.data ∧ reads 0x1C#32 s.crcAcc ∧ reads 0x20#32 s.result ∧
      reads 0x24#32 s.next)

/-- R47: no read has a side effect: a read transfer changes nothing of CRM (the port shows it and draws are counted). -/
def Obligations.ReadsHaveNoSideEffect : Prop :=
  ∀ (tr : Transfer) (s : State), tr.we = false →
    ∃ d p, completeTransfer tr s = { s with draws := d, port := p }

/-- R27: the word a host reads from `STATUS` has `BUSY`, `DONE`, `ERR` and `ERRCODE` in bits 0, 1, 2 and 7:4, and 0 in bits 3
and 31:8. -/
def Obligations.StatusWordLayout : Prop :=
  ∀ s : State, ∃ v,
    (completeTransfer ⟨false, 0x04#32, .word, 0#32⟩ s).port = some ⟨some v, false⟩ ∧
    v.getLsbD 0 = s.status.busy ∧ v.getLsbD 1 = s.status.done ∧ v.getLsbD 2 = s.status.err ∧
    v.getLsbD 3 = false ∧ v.extractLsb' 4 4 = s.status.errcode ∧ v.extractLsb' 8 24 = 0#24

/-- R28: a host write of `v` to `STATUS` clears `DONE` when bit 1 is 1 and `ERR` with `ERRCODE` when bit 2 is 1; the other
bits of `v` are ignored, so a write of 0 changes nothing; a read of `STATUS` has no side effect. -/
def Obligations.StatusWriteIsWriteOneToClear : Prop :=
  ∀ (s : State) (v : Word),
    completeTransfer ⟨true, 0x04#32, .word, v⟩ s =
      { s with
        status :=
          { busy := s.status.busy
            done := if v.getLsbD 1 then false else s.status.done
            err := if v.getLsbD 2 then false else s.status.err
            errcode := if v.getLsbD 2 then 0#4 else s.status.errcode }
        port := some ⟨none, false⟩ } ∧
    (v = 0#32 → completeTransfer ⟨true, 0x04#32, .word, v⟩ s = { s with port := some ⟨none, false⟩ }) ∧
    ∃ d, completeTransfer ⟨false, 0x04#32, .word, v⟩ s = { s with port := some ⟨d, false⟩ }

/-- R95: a `CMD` write is held while `BUSY = 1`; when it completes, it changes nothing while `ERR = 1`, and otherwise sets
`BUSY`, clears `DONE` and puts the word in flight with the operand registers sampled. -/
def Obligations.CommandIsAcceptedOrDiscarded : Prop :=
  ∀ (s : State) (w : Word), let tr : Transfer := ⟨true, 0x00#32, .word, w⟩
    (held tr s = true ↔ s.status.busy = true) ∧
    (s.status.err = true → completeTransfer tr s = { s with port := some ⟨none, false⟩ }) ∧
    (s.status.err = false → ∃ k later,
      completeTransfer tr s =
        { s with
          status := ⟨true, false, false, s.status.errcode⟩
          inFlight := some ⟨w, ⟨s.offset, s.length, s.src, s.tag, s.data, s.crcAcc⟩, k⟩
          lat := later
          port := some ⟨none, false⟩ })

/-! ### Steps -/

/-- The engine runs the command in flight: when its latency has passed, `rst_n` is 1 and its word decodes to `i`, the step
is `exec i` of the state, in which the port shows no completion and the sample of `rst_n` is taken (R95). -/
def Obligations.StepRunsTheDecodedCommand : Prop :=
  ∀ (s : State) (c : InFlight) (i : Instr), s.rstN.head? ≠ some false → s.inFlight = some c → c.wait = 0 →
    decode c.word = .command i →
    step s = exec i { s with rstN := s.rstN.tail, port := none }

/-- R113, R114: while a command is in flight and its latency has not passed, the only transfer that completes is a word read
of `STATUS`, which returns 0x0000_0001 and changes no state of CRM; every other transfer is held: the host stays at its
line and nothing changes but what is left of the latency. That a read at 0x04 of another size is held is the model's reading
(log entry 11), and that latency is counted in host moves its choice (log entry 2). -/
def Obligations.BusyHoldsAllButStatusReads : Prop :=
  ∀ (s t : State) (c : InFlight) (k : Nat) (line : ScriptLine) (tr : Transfer),
    Consistent s → s.inFlight = some c → c.wait = k + 1 → s.rstN.head? ≠ some false →
    currentLine s = some line → line.act = .transfer tr → step s = .next t →
    let waiting := { s with inFlight := some { c with wait := k }, rstN := s.rstN.tail, port := none }
    let isStatusRead := tr.we = false ∧ tr.size = .word ∧ tr.addr = 0x04#32
    (isStatusRead → t =
      { waiting with
        port := some ⟨some 0x00000001#32, false⟩
        host := { s.host with line := s.host.line + 1, lastR32 := 0x00000001#32 } }) ∧
    (¬ isStatusRead → t = waiting)

/-- A well-formed script never stops the machine: every step answers a next state when the script defines the labels it
goes to, and it defines them still after the step. -/
def Obligations.EveryStepAnswersANextState : Prop :=
  ∀ s : State, LabelsResolve s → ∃ t, step s = .next t ∧ LabelsResolve t

/-- R115, R96: an accepted command completes: after the moves its latency allows and the engine's one, with no reset in
between, no command is in flight, `BUSY = 0` and `DONE = 1`, whatever the host did meanwhile. That latency is counted in
host moves is the model's choice (log entry 2). -/
def Obligations.AcceptedCommandCompletes : Prop :=
  ∀ (s : State) (c : InFlight), Consistent s → LabelsResolve s → s.inFlight = some c → NoResetFor (c.wait + 1) s →
    ∃ t, core.run (c.wait + 1) s = .next t ∧
      t.inFlight = none ∧ t.status.busy = false ∧ t.status.done = true

/-- R46, R115: latency shows in nothing but reads of `STATUS`: while the host waits with a transfer that is held, or requests
nothing, a command of any latency ends in the state that latency 0 gives. That latency is counted in host moves is the
model's choice (log entry 2). -/
def Obligations.LatencyShowsOnlyInStatusReads : Prop :=
  ∀ (s : State) (c : InFlight) (k : Nat), Consistent s → s.inFlight = some c → s.rstN = [] →
    (currentLine s = none ∨
      ∃ line tr, currentLine s = some line ∧ line.act = .transfer tr ∧ tr.isStatusRead = false) →
    core.run (k + 1) { s with inFlight := some { c with wait := k } } =
      core.run 1 { s with inFlight := some { c with wait := 0 } }

/-- The invariant (Safety.lean): the parameter is in its range, `BUF` is in canonical form and inside its bound, `ERRCODE`
is legal for `ERR`, `BUSY` excludes `DONE` and `ERR`, a command is in flight exactly while `BUSY = 1`, and the operand
registers are the sampled ones meanwhile (R7, R13, R27, R30, R53). Every step keeps it. -/
def Obligations.EveryStepKeepsTheInvariant : Prop :=
  ∀ s t : State, Consistent s → step s = .next t → Consistent t

/-- The invariant holds after power-on reset, for every legal `BUF_SIZE`, and so of `State.reset`. -/
def Obligations.PowerOnMeetsTheInvariant : Prop :=
  (∀ p : Config.Params, p.legal → Consistent (State.powerOn p)) ∧ Consistent State.reset

/-! ### Reset -/

/-- R107: at a rising edge with `rst_n = 0` every register takes its reset value, a command in flight is abandoned and no
transfer completes. -/
def Obligations.ResetSetsTheRegisters : Prop :=
  ∀ (s : State) (rest : List Bool), s.rstN = false :: rest →
    ∃ t, step s = .next t ∧
      t.status = ⟨false, false, false, 0#4⟩ ∧ t.offset = 0#32 ∧ t.length = 0#32 ∧ t.src = 0#32 ∧ t.tag = 0#32 ∧
      t.data = 0#32 ∧ t.crcAcc = 0xFFFFFFFF#32 ∧ t.result = 0#32 ∧ t.next = 0#32 ∧ t.inFlight = none ∧
      t.port = none ∧ t.rstN = rest

/-- R109: a reset while no command is in flight does not change `BUF`. -/
def Obligations.IdleResetKeepsBuf : Prop :=
  ∀ s t : State, s.inFlight = none → s.rstN.head? = some false → step s = .next t → t.buf = s.buf

/-- R110: a reset while a command is in flight makes unwritten the record of a `WRITE_RECORD` whose record range fits, the
field of a `PUT32`, and no byte of the other commands and of illegal words; every other byte keeps its value. That the
field of a `PUT32` that does not fit keeps its bytes is the model's reading (log entry 8), and that the host and the draws
stay is its choice (log entry 5). -/
def Obligations.ResetUnwritesWhatTheCommandCouldWrite : Prop :=
  ∀ (s t : State) (c : InFlight), s.inFlight = some c → s.rstN.head? = some false → step s = .next t →
    let o := c.ops.offset.toNat
    let n := c.ops.length.toNat
    t.host = s.host ∧ t.draws = s.draws ∧
    ∀ a, t.buf.get a =
      if (∃ adv, decode c.word = .command (.writeRecord adv)) ∧ o + 12 + n ≤ s.params.bufSize ∧
          o ≤ a ∧ a ≤ o + 11 + n then none
      else if (∃ adv, decode c.word = .command (.put32 adv)) ∧ o + 4 ≤ s.params.bufSize ∧
          o ≤ a ∧ a ≤ o + 3 then none
      else s.buf.get a

/-- R108, R111: at power-on every byte of `BUF` is unwritten, CRM is idle with no error pending, and a `CMD` write is then
accepted. -/
def Obligations.PowerOnIsIdleAndUnwritten : Prop :=
  ∀ (p : Config.Params) (w : Word),
    (∀ a, (State.powerOn p).buf.get a = none) ∧
    (State.powerOn p).inFlight = none ∧ (State.powerOn p).status = ⟨false, false, false, 0#4⟩ ∧
    (State.powerOn p).crcAcc = 0xFFFFFFFF#32 ∧
    ((completeTransfer ⟨true, 0x00#32, .word, w⟩ (State.powerOn p)).inFlight.map (fun c => c.word)) = some w

/-! ### Laws over several commands -/

/-- R72: feeding a range and then the range that follows it gives the `CRC_ACC` that feeding both at once gives, when the
bytes are written. -/
def Obligations.FeedingInPiecesIsFeedingAtOnce : Prop :=
  ∀ (s t u v : State) (n1 n2 : Nat), s.inFlight = none →
    s.offset.toNat + n1 + n2 ≤ s.params.bufSize → n1 + n2 < 2 ^ 32 → s.offset.toNat + n1 < 2 ^ 32 →
    RangeWritten s.buf s.offset.toNat (n1 + n2) →
    exec .crcFeed { s with length := BitVec.ofNat 32 n1 } = .next t →
    exec .crcFeed { t with offset := BitVec.ofNat 32 (s.offset.toNat + n1), length := BitVec.ofNat 32 n2 } = .next u →
    exec .crcFeed { s with length := BitVec.ofNat 32 (n1 + n2) } = .next v →
    u.crcAcc = v.crcAcc

/-- R74: `CHECKSUM` gives the `RESULT` that `CRC_INIT`, `CRC_FEED`, `CRC_FINAL` give on the same operands and written bytes,
and unlike them leaves `CRC_ACC` alone. -/
def Obligations.ChecksumIsInitFeedFinal : Prop :=
  ∀ s t1 t2 t3 u : State, s.inFlight = none → s.status.err = false →
    s.offset.toNat + s.length.toNat ≤ s.params.bufSize →
    RangeWritten s.buf s.offset.toNat s.length.toNat →
    exec .crcInit s = .next t1 → exec .crcFeed t1 = .next t2 → exec .crcFinal t2 = .next t3 →
    exec .checksum s = .next u →
    u.result = t3.result ∧ u.crcAcc = s.crcAcc

/-- R70, C4: the `RESULT` of a `CHECKSUM` depends on the bytes of its range alone: two states with the same operands whose
written bytes agree there give the same `RESULT`, whatever else differs. -/
def Obligations.ChecksumDependsOnItsRangeAlone : Prop :=
  ∀ s s' t t' : State,
    (operands s).offset = (operands s').offset → (operands s).length = (operands s').length →
    (operands s).offset.toNat + (operands s).length.toNat ≤ s.params.bufSize →
    (operands s').offset.toNat + (operands s').length.toNat ≤ s'.params.bufSize →
    RangeWritten s.buf (operands s).offset.toNat (operands s).length.toNat →
    (∀ a, (operands s).offset.toNat ≤ a → a < (operands s).offset.toNat + (operands s).length.toNat →
      s.buf.get a = s'.buf.get a) →
    exec .checksum s = .next t → exec .checksum s' = .next t' →
    t.result = t'.result

/-- R112, item 1: when every byte a command reads is written, the command draws no free value. -/
def Obligations.PreparedCommandsDrawNothing : Prop :=
  ∀ (i : Instr) (s t : State), Prepared i s → exec i s = .next t → t.draws = s.draws

/-- R83: a record that is written without error, with `ADV` or without, has its length field equal to the byte count of
its payload, its checksum field equal to `RESULT`, and a `CHECKSUM` over its tag and payload gives that value again; writing
it once more from the same operands and written bytes gives the same `BUF`, `RESULT` and `NEXT`. -/
def Obligations.WrittenRecordVerifies : Prop :=
  ∀ (adv : Bool) (s t : State), Consistent s → s.inFlight = none → s.status.err = false →
    exec (.writeRecord adv) s = .next t → t.status.err = false →
    let o := s.offset.toNat
    let n := s.length.toNat
    (∀ k, k < 4 → t.buf.get (o + k) = some ((s.length >>> (8 * (3 - k))).setWidth 8)) ∧
    (∀ k, k < 4 → t.buf.get (o + 8 + n + k) = some ((t.result >>> (8 * (3 - k))).setWidth 8)) ∧
    (∃ u, exec .checksum { t with offset := s.offset + 4#32, length := s.length + 4#32 } = .next u ∧
      u.status.err = false ∧ u.result = t.result) ∧
    (RangeWritten s.buf (payloadStart (operands s)) n →
      ∃ u, exec (.writeRecord adv) { t with offset := s.offset } = .next u ∧
        u.buf = t.buf ∧ u.result = t.result ∧ u.next = t.next)

/-- R82: records written by `WRITE_RECORD.ADV` one after another, none with an error, leave `OFFSET` at the start plus the
sum of `12 + n`: they lie end to end. -/
def Obligations.ChainedRecordsLieEndToEnd : Prop :=
  ∀ (records : List RecordArgs) (s t : State), s.params.legal → s.inFlight = none → s.status.err = false →
    writeChain records s = .next t → t.status.err = false →
    t.offset.toNat = s.offset.toNat + chainBytes records

/-- `BUF` is determined by what its cells read as: two buffers in canonical form with the same bytes are the same. -/
def Obligations.EqualBytesAreEqualBuffers : Prop :=
  ∀ m m' : Memory, m.wf → m'.wf → (∀ a, m.get a = m'.get a) → m = m'

/-! ### Host scripts -/

/-- R64, R65: the host's own control, while CRM is idle and while a command waits (as in the poll loop of a `WAIT`). At a
label the host goes on; at `BNZ` it goes on when the last `R32` value and the mask share no bit, and to the label when they
do. Nothing of CRM changes but what is left of the latency, and nothing completes on the port. That these lines take a host
move each, and that a `BNZ` to a label the script does not define is a fault, are the model's choices (log entries 2
and 10). -/
def Obligations.BranchFollowsTheLastRead : Prop :=
  ∀ s : State, s.rstN.head? ≠ some false → (∀ c, s.inFlight = some c → 0 < c.wait) →
    let goes (k : Nat) : State :=
      { s with
        host := { s.host with line := k }
        inFlight := s.inFlight.map (fun c => { c with wait := c.wait - 1 })
        rstN := s.rstN.tail
        port := none }
    (∀ l, currentLine s = some (.label l) → step s = .next (goes (s.host.line + 1))) ∧
    (∀ mask l, currentLine s = some (.bnz mask l) →
      (s.host.lastR32 &&& mask = 0#32 → step s = .next (goes (s.host.line + 1))) ∧
      (s.host.lastR32 &&& mask ≠ 0#32 → .label l ∈ s.host.script →
        ∃ k, step s = .next (goes k) ∧ s.host.script[k]? = some (.label l)) ∧
      (s.host.lastR32 &&& mask ≠ 0#32 → .label l ∉ s.host.script → step s = .fault (.undefinedLabel l)))

/-- R64: when no command is in flight, a line that is a transfer completes at its step, with the encoding R64 gives it: the
step is the transfer's effect, and the host goes on. The last `R32` value becomes what an `R32` line reads, and stays at
every other line of R64. (The model's own line, any transfer, is an `R32` when it is a word read of a register, log entry 10;
the host goes on after a bus error too, log entry 19.) -/
def Obligations.ScriptLinesDriveThePort : Prop :=
  ∀ (s : State) (line : ScriptLine) (tr : Transfer), s.inFlight = none → s.status.busy = false →
    s.rstN.head? ≠ some false → currentLine s = some line →
    (match line with
      | .w32 r v => tr = ⟨true, r.addr, .word, v⟩
      | .r32 r _ => tr = ⟨false, r.addr, .word, 0#32⟩
      | .w8 i b => tr.we = true ∧ tr.addr.toNat = 0x80000000 + i.toNat ∧ tr.size = .byte ∧ tr.wdata = 0#24 ++ b
      | .r8 i _ => tr.we = false ∧ tr.addr.toNat = 0x80000000 + i.toNat ∧ tr.size = .byte ∧ tr.wdata = 0#32
      | .cmd i => tr = ⟨true, 0x00#32, .word, encode i⟩
      | .xfer t => tr = t
      | .label _ => False
      | .bnz _ _ => False) →
    let u := completeTransfer tr { s with rstN := s.rstN.tail, port := none }
    let readsRegister := tr.we = false ∧ tr.size = .word ∧ tr.addr.toNat % 4 = 0 ∧ tr.addr.toNat ≤ 0x24
    ∃ v, step s = .next { u with host := { s.host with line := s.host.line + 1, lastR32 := v } } ∧
      (match line with
        | .w32 _ _ => v = s.host.lastR32
        | .r32 _ _ => u.port = some ⟨some v, false⟩
        | .w8 _ _ => v = s.host.lastR32
        | .r8 _ _ => v = s.host.lastR32
        | .cmd _ => v = s.host.lastR32
        | .xfer _ => (readsRegister → u.port = some ⟨some v, false⟩) ∧ (¬ readsRegister → v = s.host.lastR32)
        | .label _ => False
        | .bnz _ _ => False)

/-- R118: a run that has ended stays as it is: with its script ended, no command in flight and no reset, a step changes
nothing but the port's completion. -/
def Obligations.FinishedRunStays : Prop :=
  ∀ s : State, Consistent s → Finished s → s.rstN = [] → step s = .next { s with port := none }

/-- R65: the expansions of the pseudo-instructions, each a list of lines of R64; the label of a `WAIT` is the fresh one it is
given. A `W8S` writes byte `k` at `BUF[i + k]`, in unbounded arithmetic (R8); one that reaches offset 2^31, which no `W8` line
can name, has no expansion (the model's choice, log entry 10). -/
def Obligations.PseudoInstructionsExpand : Prop :=
  ∀ (fresh : Label) (o n v tag src : Word) (i : BitVec 31) (bytes : List Byte),
    Pseudo.wait.expand fresh = some [.label fresh, .r32 .status none, .bnz 0x1#32 fresh] ∧
    Pseudo.clrerr.expand fresh = some [.w32 .status 0x00000006#32] ∧
    (Pseudo.setr o n).expand fresh = some [.w32 .offset o, .w32 .length n] ∧
    (Pseudo.crc o n).expand fresh = some [.w32 .offset o, .w32 .length n, .cmd .checksum, .r32 .result none] ∧
    (Pseudo.putw v).expand fresh = some [.w32 .data v, .cmd (.put32 true)] ∧
    Pseudo.sig.expand fresh =
      some [.w32 .data 0x89504E47#32, .cmd (.put32 true), .w32 .data 0x0D0A1A0A#32, .cmd (.put32 true)] ∧
    (Pseudo.record tag src n).expand fresh =
      some [.w32 .tag tag, .w32 .src src, .w32 .length n, .cmd (.writeRecord true)] ∧
    (i.toNat + bytes.length ≤ 2 ^ 31 →
      ∃ lines, (Pseudo.w8s i bytes).expand fresh = some lines ∧ lines.length = bytes.length ∧
        ∀ k b, bytes[k]? = some b →
          ∃ j : BitVec 31, j.toNat = i.toNat + k ∧ lines[k]? = some (.w8 j b)) ∧
    (2 ^ 31 < i.toNat + bytes.length → (Pseudo.w8s i bytes).expand fresh = none)

/-- R65: a `WAIT` uses a fresh label, so expanding the pseudo-instructions of a script whose own labels resolve and are
distinct gives a script of which the same is true. It has an expansion unless a `W8S` of it reaches offset 2^31 (log
entry 10). -/
def Obligations.ExpandedScriptsStayWellFormed : Prop :=
  ∀ src : List SourceLine,
    (∀ out, scriptWellFormed (plainLines src) = true → expandScript src = some out → scriptWellFormed out = true) ∧
    ((expandScript src).isSome = true ↔
      ∀ i bytes, .pseudo (.w8s i bytes) ∈ src → i.toNat + bytes.length ≤ 2 ^ 31)

/-- R66: disassembly gives the spelling of the table of R60 for its nine words and `illegal <word>` for every other, and
each spelling assembles to its word. -/
def Obligations.DisassemblyFollowsTheTable : Prop :=
  (∀ w : Word,
    (∃ i, decode w = .command i ∧ encode i = w ∧ disassemble w = .spelled i.spelling ∧ assemble i.spelling = some w) ∨
    ((∀ i : Instr, encode i ≠ w) ∧ disassemble w = .illegal w)) ∧
  ∀ i j : Instr, i.spelling = j.spelling → i = j
end

