-- ==== Sys2Proof/Laws/Memory.lean ====
section
/-! SUPPORT. The laws of `BUF`: reading after writing and erasing, ranges, and that every operation keeps the canonical
form and stays inside the buffer. -/

namespace Sys2Proof.Machine

variable {m : Memory} {a n d : Nat} {b : Byte}

@[simp] theorem Memory.get_nil (a : Nat) : Memory.get [] a = none := rfl

theorem Memory.get_cons (c : Host.Cell) (m : Memory) (a : Nat) :
    Memory.get (c :: m) a = if c.1 = a then some c.2 else Memory.get m a := rfl

/-- Reading after a write: the byte written, or what was there. -/
theorem Memory.get_set (m : Memory) (a : Nat) (b : Byte) (k : Nat) :
    (m.set a b).get k = if k = a then some b else m.get k := by
  induction m with
  | nil => simp [Memory.set, Memory.get_cons, eq_comm]
  | cons c rest ih =>
    by_cases hlt : a < c.1
    · simp [Memory.set, hlt, Memory.get_cons, eq_comm]
    · by_cases heq : a = c.1
      · subst heq
        by_cases hk : k = c.1
        · simp [Memory.set, Memory.get_cons, hk]
        · simp [Memory.set, Memory.get_cons, hk, Ne.symm hk]
      · simp only [Memory.set, hlt, heq, if_false, Memory.get_cons, ih]
        by_cases hk : c.1 = k
        · have : ¬ k = a := fun h => heq (by omega)
          simp [hk, this]
        · simp [hk]

@[simp] theorem Memory.get_set_same (m : Memory) (a : Nat) (b : Byte) : (m.set a b).get a = some b := by
  simp [Memory.get_set]

/-- What a reset makes unwritten is unwritten; every other cell keeps its byte. -/
theorem Memory.get_erase (m : Memory) (a n k : Nat) :
    (m.erase a n).get k = if a ≤ k ∧ k < a + n then none else m.get k := by
  induction m with
  | nil => simp [Memory.erase]
  | cons c rest ih =>
    have ih' : Memory.get (List.filter (fun c => decide (c.1 < a ∨ a + n ≤ c.1)) rest) k =
        if a ≤ k ∧ k < a + n then none else Memory.get rest k := ih
    by_cases hin : c.1 < a ∨ a + n ≤ c.1
    · simp only [Memory.erase, List.filter_cons, hin, decide_true, if_true, Memory.get_cons, ih']
      by_cases hk : c.1 = k
      · have : ¬ (a ≤ k ∧ k < a + n) := by omega
        simp [hk, this]
      · simp [hk]
    · simp only [Memory.erase, List.filter_cons, hin, decide_false, Bool.false_eq_true, if_false,
        Memory.get_cons, ih']
      by_cases hk : c.1 = k
      · have : a ≤ k ∧ k < a + n := by omega
        simp [this]
      · simp [hk]

@[simp] theorem Memory.erase_zero (m : Memory) (a : Nat) : m.erase a 0 = m := by
  refine List.filter_eq_self.2 ?_
  intro c _
  simp only [decide_eq_true_eq]
  omega

/-- The cells a write leaves are the written one and old ones. -/
theorem Memory.mem_set {c : Host.Cell} (h : c ∈ m.set a b) : c = (a, b) ∨ c ∈ m := by
  induction m with
  | nil => simpa [Memory.set] using h
  | cons e rest ih =>
    by_cases hlt : a < e.1
    · simpa [Memory.set, hlt] using h
    · by_cases heq : a = e.1
      · simp only [Memory.set, heq, lt_irrefl, if_false, if_true, List.mem_cons] at h
        rcases h with h | h
        · exact .inl (by simpa [heq] using h)
        · exact .inr (List.mem_cons_of_mem _ h)
      · simp only [Memory.set, hlt, heq, if_false, List.mem_cons] at h
        rcases h with h | h
        · exact .inr (h ▸ List.mem_cons_self)
        · rcases ih h with h | h
          · exact .inl h
          · exact .inr (List.mem_cons_of_mem _ h)

/-- A write keeps the canonical form. -/
theorem Memory.wf_set (h : m.wf) (a : Nat) (b : Byte) : (m.set a b).wf := by
  induction m with
  | nil => exact List.pairwise_singleton _ _
  | cons c rest ih =>
    obtain ⟨hc, hrest⟩ := List.pairwise_cons.1 h
    by_cases hlt : a < c.1
    · simp only [Memory.set, hlt, if_true]
      refine List.pairwise_cons.2 ⟨?_, h⟩
      rintro e he
      rcases List.mem_cons.1 he with rfl | he
      · exact hlt
      · exact lt_trans hlt (hc e he)
    · by_cases heq : a = c.1
      · simp only [Memory.set, heq, lt_irrefl, if_false, if_true]
        exact List.pairwise_cons.2 ⟨hc, hrest⟩
      · simp only [Memory.set, hlt, heq, if_false]
        refine List.pairwise_cons.2 ⟨?_, ih hrest⟩
        intro e he
        rcases Memory.mem_set he with rfl | he
        · show c.1 < a
          omega
        · exact hc e he

/-- Making cells unwritten keeps the canonical form. -/
theorem Memory.wf_erase (h : m.wf) (a n : Nat) : (m.erase a n).wf := List.Pairwise.filter _ h

theorem Memory.mem_erase {c : Host.Cell} (h : c ∈ m.erase a n) : c ∈ m := (List.mem_filter.1 h).1

/-- Reading after a range write: byte `k - a` of the sequence inside the range, what was there outside. -/
theorem Memory.get_writeRange (m : Memory) (a : Nat) (s : List Byte) (k : Nat) :
    (m.writeRange a s).get k = if a ≤ k ∧ k < a + s.length then s[k - a]? else m.get k := by
  induction s generalizing m a with
  | nil =>
    have : ¬ (a ≤ k ∧ k < a + 0) := by omega
    simp only [Memory.writeRange, List.length_nil, this, if_false]
  | cons b rest ih =>
    simp only [Memory.writeRange, ih, List.length_cons, Memory.get_set]
    by_cases hk : k = a
    · subst hk
      have h1 : ¬ (k + 1 ≤ k ∧ k < k + 1 + rest.length) := by omega
      have h2 : k ≤ k ∧ k < k + (rest.length + 1) := by omega
      simp [h2]
    · by_cases hin : a + 1 ≤ k ∧ k < a + 1 + rest.length
      · have h2 : a ≤ k ∧ k < a + (rest.length + 1) := by omega
        have h3 : k - a = (k - (a + 1)) + 1 := by omega
        rw [if_pos hin, if_pos h2, h3, List.getElem?_cons_succ]
      · have h2 : ¬ (a ≤ k ∧ k < a + (rest.length + 1)) := by omega
        rw [if_neg hin, if_neg h2, if_neg hk]

theorem Memory.wf_writeRange (h : m.wf) (a : Nat) (s : List Byte) : (m.writeRange a s).wf := by
  induction s generalizing m a with
  | nil => exact h
  | cons b rest ih => exact ih (Memory.wf_set h a b) (a + 1)

/-- A range write inside a bound keeps every cell inside it. -/
theorem Memory.writeRange_inside {size : Nat} (hm : ∀ c ∈ m, c.1 < size) {s : List Byte}
    (hs : a + s.length ≤ size) : ∀ c ∈ m.writeRange a s, c.1 < size := by
  induction s generalizing m a with
  | nil => exact hm
  | cons b rest ih =>
    simp only [List.length_cons] at hs
    refine ih ?_ (by omega)
    intro c hc
    rcases Memory.mem_set hc with rfl | hc
    · show a < size
      omega
    · exact hm c hc

@[simp] theorem be32_length (v : Word) : (be32 v).length = 4 := rfl

/-- How many of `n` cells from `a` on are unwritten. -/
def unwrittenIn (m : Memory) (a n : Nat) : Nat :=
  match n with
  | 0 => 0
  | k + 1 => (if (m.get a).isSome then 0 else 1) + unwrittenIn m (a + 1) k

theorem readCell_written (h : m.get a = some b) (d : Nat) : readCell m a d = (b, d) := by
  simp [readCell, h]

theorem readCell_unwritten (h : m.get a = none) (d : Nat) :
    readCell m a d = (Config.freeByte d, d + 1) := by
  simp [readCell, h]

@[simp] theorem readRange_zero (m : Memory) (a d : Nat) : readRange m a 0 d = ([], d) := rfl

theorem readRange_succ (m : Memory) (a k d : Nat) :
    readRange m a (k + 1) d =
      ((readCell m a d).1 :: (readRange m (a + 1) k (readCell m a d).2).1,
        (readRange m (a + 1) k (readCell m a d).2).2) := rfl

@[simp] theorem readRange_length (m : Memory) (a n d : Nat) : (readRange m a n d).1.length = n := by
  induction n generalizing a d with
  | zero => rfl
  | succ k ih => simp [readRange_succ, ih]

/-- Each unwritten cell of the range is one draw. -/
theorem readRange_draws (m : Memory) (a n d : Nat) :
    (readRange m a n d).2 = d + unwrittenIn m a n := by
  induction n generalizing a d with
  | zero => rfl
  | succ k ih =>
    rw [readRange_succ, ih]
    cases h : m.get a with
    | none =>
      simp only [readCell, h, unwrittenIn, Option.isSome_none, Bool.false_eq_true, if_false]
      omega
    | some b => simp [readCell, h, unwrittenIn]

/-- A written cell of the range is read as the byte written there. -/
theorem readRange_written (m : Memory) (a n d : Nat) {k : Nat} (hk : k < n) (h : m.get (a + k) = some b) :
    (readRange m a n d).1[k]? = some b := by
  induction n generalizing a d k with
  | zero => omega
  | succ j ih =>
    rw [readRange_succ]
    cases k with
    | zero => simp [readCell, (by simpa using h : m.get a = some b)]
    | succ i =>
      have h' : m.get (a + 1 + i) = some b := by
        rw [← h]
        congr 1
        omega
      simpa using ih (a + 1) (readCell m a d).2 (by omega) h'

/-- A range whose cells are all written draws nothing, whatever the count. -/
theorem readRange_prepared {m : Memory} {a n : Nat} (h : RangeWritten m a n) (d : Nat) :
    readRange m a n d = ((readRange m a n 0).1, d) := by
  induction n generalizing a d with
  | zero => rfl
  | succ k ih =>
    have h0 : (m.get a).isSome = true := by simpa using h 0 (by omega)
    obtain ⟨b, hb⟩ := Option.isSome_iff_exists.1 h0
    have hrest : RangeWritten m (a + 1) k := by
      intro j hj
      have := h (j + 1) (by omega)
      rwa [show a + (j + 1) = a + 1 + j by omega] at this
    simp only [readRange_succ, readCell, hb]
    rw [ih hrest d]

/-- Two buffers that agree on a range read alike there. -/
theorem readRange_congr {m m' : Memory} {a n : Nat} (h : ∀ k, k < n → m.get (a + k) = m'.get (a + k)) (d : Nat) :
    readRange m a n d = readRange m' a n d := by
  induction n generalizing a d with
  | zero => rfl
  | succ k ih =>
    have h0 : m.get a = m'.get a := by simpa using h 0 (by omega)
    have hrest : ∀ j, j < k → m.get (a + 1 + j) = m'.get (a + 1 + j) := by
      intro j hj
      have := h (j + 1) (by omega)
      rwa [show a + (j + 1) = a + 1 + j by omega] at this
    simp only [readRange_succ, readCell, h0]
    rw [ih hrest]

/-- The bytes of `BUF` after a record is written, cell by cell (41_marshal.md R75). -/
theorem get_writeRecordBytes (m : Memory) (x : Operands) {payload : List Byte} (hp : payload.length = x.n)
    (sum : Word) (k : Nat) :
    (writeRecordBytes m x payload sum).get k =
      if x.o + 8 + x.n ≤ k ∧ k < x.o + 8 + x.n + 4 then (be32 sum)[k - (x.o + 8 + x.n)]?
      else if x.o + 8 ≤ k ∧ k < x.o + 8 + x.n then payload[k - (x.o + 8)]?
      else if x.o + 4 ≤ k ∧ k < x.o + 4 + 4 then (be32 x.tag)[k - (x.o + 4)]?
      else if x.o ≤ k ∧ k < x.o + 4 then (be32 x.length)[k - x.o]?
      else m.get k := by
  simp only [writeRecordBytes, Memory.get_writeRange, be32_length, hp]
  rfl

theorem wf_writeRecordBytes (h : m.wf) (x : Operands) (payload : List Byte) (sum : Word) :
    (writeRecordBytes m x payload sum).wf :=
  Memory.wf_writeRange (Memory.wf_writeRange (Memory.wf_writeRange (Memory.wf_writeRange h _ _) _ _) _ _) _ _

theorem writeRecordBytes_inside {size : Nat} (hm : ∀ c ∈ m, c.1 < size) {x : Operands} {payload : List Byte}
    (hp : payload.length = x.n) (hfit : recordEnd x ≤ size) (sum : Word) :
    ∀ c ∈ writeRecordBytes m x payload sum, c.1 < size := by
  have hend : x.o + 12 + x.n ≤ size := hfit
  refine Memory.writeRange_inside (Memory.writeRange_inside (Memory.writeRange_inside
    (Memory.writeRange_inside hm ?_) ?_) ?_) ?_ <;> simp only [be32_length, hp] <;> omega

end Sys2Proof.Machine
end

