-- ==== Sys2Proof/Laws/State.lean ====
section
/-! SUPPORT. One lemma per field per named update of the state, so that no proof unfolds a record update. -/

namespace Sys2Proof.Machine

variable (s : State)

/-! ### Completion (60_exceptions.md R96) -/

@[simp] theorem completeCmd_params : (completeCmd s).params = s.params := rfl
@[simp] theorem completeCmd_status : (completeCmd s).status = s.status.completed := rfl
@[simp] theorem completeCmd_offset : (completeCmd s).offset = s.offset := rfl
@[simp] theorem completeCmd_length : (completeCmd s).length = s.length := rfl
@[simp] theorem completeCmd_src : (completeCmd s).src = s.src := rfl
@[simp] theorem completeCmd_tag : (completeCmd s).tag = s.tag := rfl
@[simp] theorem completeCmd_data : (completeCmd s).data = s.data := rfl
@[simp] theorem completeCmd_crcAcc : (completeCmd s).crcAcc = s.crcAcc := rfl
@[simp] theorem completeCmd_result : (completeCmd s).result = s.result := rfl
@[simp] theorem completeCmd_next : (completeCmd s).next = s.next := rfl
@[simp] theorem completeCmd_crcPriv : (completeCmd s).crcPriv = s.crcPriv := rfl
@[simp] theorem completeCmd_inFlight : (completeCmd s).inFlight = none := rfl
@[simp] theorem completeCmd_buf : (completeCmd s).buf = s.buf := rfl
@[simp] theorem completeCmd_draws : (completeCmd s).draws = s.draws := rfl
@[simp] theorem completeCmd_port : (completeCmd s).port = s.port := rfl
@[simp] theorem completeCmd_host : (completeCmd s).host = s.host := rfl
@[simp] theorem completeCmd_rstN : (completeCmd s).rstN = s.rstN := rfl
@[simp] theorem completeCmd_lat : (completeCmd s).lat = s.lat := rfl

/-! ### Error completion (60_exceptions.md R92) -/

@[simp] theorem raiseCmdError_params (e : CmdError) : (raiseCmdError e s).params = s.params := rfl
@[simp] theorem raiseCmdError_status (e : CmdError) : (raiseCmdError e s).status = Status.failed e := rfl
@[simp] theorem raiseCmdError_offset (e : CmdError) : (raiseCmdError e s).offset = s.offset := rfl
@[simp] theorem raiseCmdError_length (e : CmdError) : (raiseCmdError e s).length = s.length := rfl
@[simp] theorem raiseCmdError_src (e : CmdError) : (raiseCmdError e s).src = s.src := rfl
@[simp] theorem raiseCmdError_tag (e : CmdError) : (raiseCmdError e s).tag = s.tag := rfl
@[simp] theorem raiseCmdError_data (e : CmdError) : (raiseCmdError e s).data = s.data := rfl
@[simp] theorem raiseCmdError_crcAcc (e : CmdError) : (raiseCmdError e s).crcAcc = s.crcAcc := rfl
@[simp] theorem raiseCmdError_result (e : CmdError) : (raiseCmdError e s).result = s.result := rfl
@[simp] theorem raiseCmdError_next (e : CmdError) : (raiseCmdError e s).next = s.next := rfl
@[simp] theorem raiseCmdError_crcPriv (e : CmdError) : (raiseCmdError e s).crcPriv = s.crcPriv := rfl
@[simp] theorem raiseCmdError_inFlight (e : CmdError) : (raiseCmdError e s).inFlight = none := rfl
@[simp] theorem raiseCmdError_buf (e : CmdError) : (raiseCmdError e s).buf = s.buf := rfl
@[simp] theorem raiseCmdError_draws (e : CmdError) : (raiseCmdError e s).draws = s.draws := rfl
@[simp] theorem raiseCmdError_port (e : CmdError) : (raiseCmdError e s).port = s.port := rfl
@[simp] theorem raiseCmdError_host (e : CmdError) : (raiseCmdError e s).host = s.host := rfl
@[simp] theorem raiseCmdError_rstN (e : CmdError) : (raiseCmdError e s).rstN = s.rstN := rfl
@[simp] theorem raiseCmdError_lat (e : CmdError) : (raiseCmdError e s).lat = s.lat := rfl

/-! ### A host write to `STATUS` (10_state.md R28) -/

@[simp] theorem writeStatus_params (w : Word) : (writeStatus w s).params = s.params := rfl
@[simp] theorem writeStatus_status (w : Word) : (writeStatus w s).status = s.status.hostWrite w := rfl
@[simp] theorem writeStatus_offset (w : Word) : (writeStatus w s).offset = s.offset := rfl
@[simp] theorem writeStatus_length (w : Word) : (writeStatus w s).length = s.length := rfl
@[simp] theorem writeStatus_src (w : Word) : (writeStatus w s).src = s.src := rfl
@[simp] theorem writeStatus_tag (w : Word) : (writeStatus w s).tag = s.tag := rfl
@[simp] theorem writeStatus_data (w : Word) : (writeStatus w s).data = s.data := rfl
@[simp] theorem writeStatus_crcAcc (w : Word) : (writeStatus w s).crcAcc = s.crcAcc := rfl
@[simp] theorem writeStatus_result (w : Word) : (writeStatus w s).result = s.result := rfl
@[simp] theorem writeStatus_next (w : Word) : (writeStatus w s).next = s.next := rfl
@[simp] theorem writeStatus_crcPriv (w : Word) : (writeStatus w s).crcPriv = s.crcPriv := rfl
@[simp] theorem writeStatus_inFlight (w : Word) : (writeStatus w s).inFlight = s.inFlight := rfl
@[simp] theorem writeStatus_buf (w : Word) : (writeStatus w s).buf = s.buf := rfl
@[simp] theorem writeStatus_draws (w : Word) : (writeStatus w s).draws = s.draws := rfl
@[simp] theorem writeStatus_port (w : Word) : (writeStatus w s).port = s.port := rfl
@[simp] theorem writeStatus_host (w : Word) : (writeStatus w s).host = s.host := rfl
@[simp] theorem writeStatus_rstN (w : Word) : (writeStatus w s).rstN = s.rstN := rfl
@[simp] theorem writeStatus_lat (w : Word) : (writeStatus w s).lat = s.lat := rfl

/-! ### Putting a command in flight (60_exceptions.md R95) -/

@[simp] theorem launchCmd_params (w : Word) (k : Nat) : (launchCmd w k s).params = s.params := rfl
@[simp] theorem launchCmd_status (w : Word) (k : Nat) : (launchCmd w k s).status = s.status.accepted := rfl
@[simp] theorem launchCmd_offset (w : Word) (k : Nat) : (launchCmd w k s).offset = s.offset := rfl
@[simp] theorem launchCmd_length (w : Word) (k : Nat) : (launchCmd w k s).length = s.length := rfl
@[simp] theorem launchCmd_src (w : Word) (k : Nat) : (launchCmd w k s).src = s.src := rfl
@[simp] theorem launchCmd_tag (w : Word) (k : Nat) : (launchCmd w k s).tag = s.tag := rfl
@[simp] theorem launchCmd_data (w : Word) (k : Nat) : (launchCmd w k s).data = s.data := rfl
@[simp] theorem launchCmd_crcAcc (w : Word) (k : Nat) : (launchCmd w k s).crcAcc = s.crcAcc := rfl
@[simp] theorem launchCmd_result (w : Word) (k : Nat) : (launchCmd w k s).result = s.result := rfl
@[simp] theorem launchCmd_next (w : Word) (k : Nat) : (launchCmd w k s).next = s.next := rfl
@[simp] theorem launchCmd_crcPriv (w : Word) (k : Nat) : (launchCmd w k s).crcPriv = s.crcPriv := rfl
@[simp] theorem launchCmd_inFlight (w : Word) (k : Nat) : (launchCmd w k s).inFlight = some ⟨w, sampleOperands s, k⟩ := rfl
@[simp] theorem launchCmd_buf (w : Word) (k : Nat) : (launchCmd w k s).buf = s.buf := rfl
@[simp] theorem launchCmd_draws (w : Word) (k : Nat) : (launchCmd w k s).draws = s.draws := rfl
@[simp] theorem launchCmd_port (w : Word) (k : Nat) : (launchCmd w k s).port = s.port := rfl
@[simp] theorem launchCmd_host (w : Word) (k : Nat) : (launchCmd w k s).host = s.host := rfl
@[simp] theorem launchCmd_rstN (w : Word) (k : Nat) : (launchCmd w k s).rstN = s.rstN := rfl
@[simp] theorem launchCmd_lat (w : Word) (k : Nat) : (launchCmd w k s).lat = s.lat := rfl

/-! ### A host write to a byte of `BUF` (20_memory.md R38) -/

@[simp] theorem writeCell_params (i : Nat) (v : Word) : (writeCell i v s).params = s.params := rfl
@[simp] theorem writeCell_status (i : Nat) (v : Word) : (writeCell i v s).status = s.status := rfl
@[simp] theorem writeCell_offset (i : Nat) (v : Word) : (writeCell i v s).offset = s.offset := rfl
@[simp] theorem writeCell_length (i : Nat) (v : Word) : (writeCell i v s).length = s.length := rfl
@[simp] theorem writeCell_src (i : Nat) (v : Word) : (writeCell i v s).src = s.src := rfl
@[simp] theorem writeCell_tag (i : Nat) (v : Word) : (writeCell i v s).tag = s.tag := rfl
@[simp] theorem writeCell_data (i : Nat) (v : Word) : (writeCell i v s).data = s.data := rfl
@[simp] theorem writeCell_crcAcc (i : Nat) (v : Word) : (writeCell i v s).crcAcc = s.crcAcc := rfl
@[simp] theorem writeCell_result (i : Nat) (v : Word) : (writeCell i v s).result = s.result := rfl
@[simp] theorem writeCell_next (i : Nat) (v : Word) : (writeCell i v s).next = s.next := rfl
@[simp] theorem writeCell_crcPriv (i : Nat) (v : Word) : (writeCell i v s).crcPriv = s.crcPriv := rfl
@[simp] theorem writeCell_inFlight (i : Nat) (v : Word) : (writeCell i v s).inFlight = s.inFlight := rfl
@[simp] theorem writeCell_buf (i : Nat) (v : Word) : (writeCell i v s).buf = s.buf.set i (v.setWidth 8) := rfl
@[simp] theorem writeCell_draws (i : Nat) (v : Word) : (writeCell i v s).draws = s.draws := rfl
@[simp] theorem writeCell_port (i : Nat) (v : Word) : (writeCell i v s).port = s.port := rfl
@[simp] theorem writeCell_host (i : Nat) (v : Word) : (writeCell i v s).host = s.host := rfl
@[simp] theorem writeCell_rstN (i : Nat) (v : Word) : (writeCell i v s).rstN = s.rstN := rfl
@[simp] theorem writeCell_lat (i : Nat) (v : Word) : (writeCell i v s).lat = s.lat := rfl

/-! ### The host goes on to its next line -/

@[simp] theorem nextLine_params : (nextLine s).params = s.params := rfl
@[simp] theorem nextLine_status : (nextLine s).status = s.status := rfl
@[simp] theorem nextLine_offset : (nextLine s).offset = s.offset := rfl
@[simp] theorem nextLine_length : (nextLine s).length = s.length := rfl
@[simp] theorem nextLine_src : (nextLine s).src = s.src := rfl
@[simp] theorem nextLine_tag : (nextLine s).tag = s.tag := rfl
@[simp] theorem nextLine_data : (nextLine s).data = s.data := rfl
@[simp] theorem nextLine_crcAcc : (nextLine s).crcAcc = s.crcAcc := rfl
@[simp] theorem nextLine_result : (nextLine s).result = s.result := rfl
@[simp] theorem nextLine_next : (nextLine s).next = s.next := rfl
@[simp] theorem nextLine_crcPriv : (nextLine s).crcPriv = s.crcPriv := rfl
@[simp] theorem nextLine_inFlight : (nextLine s).inFlight = s.inFlight := rfl
@[simp] theorem nextLine_buf : (nextLine s).buf = s.buf := rfl
@[simp] theorem nextLine_draws : (nextLine s).draws = s.draws := rfl
@[simp] theorem nextLine_port : (nextLine s).port = s.port := rfl
@[simp] theorem nextLine_host : (nextLine s).host = { s.host with line := s.host.line + 1 } := rfl
@[simp] theorem nextLine_rstN : (nextLine s).rstN = s.rstN := rfl
@[simp] theorem nextLine_lat : (nextLine s).lat = s.lat := rfl

/-! ### The start of a step -/

@[simp] theorem beginStep_params : (beginStep s).params = s.params := rfl
@[simp] theorem beginStep_status : (beginStep s).status = s.status := rfl
@[simp] theorem beginStep_offset : (beginStep s).offset = s.offset := rfl
@[simp] theorem beginStep_length : (beginStep s).length = s.length := rfl
@[simp] theorem beginStep_src : (beginStep s).src = s.src := rfl
@[simp] theorem beginStep_tag : (beginStep s).tag = s.tag := rfl
@[simp] theorem beginStep_data : (beginStep s).data = s.data := rfl
@[simp] theorem beginStep_crcAcc : (beginStep s).crcAcc = s.crcAcc := rfl
@[simp] theorem beginStep_result : (beginStep s).result = s.result := rfl
@[simp] theorem beginStep_next : (beginStep s).next = s.next := rfl
@[simp] theorem beginStep_crcPriv : (beginStep s).crcPriv = s.crcPriv := rfl
@[simp] theorem beginStep_inFlight : (beginStep s).inFlight = s.inFlight := rfl
@[simp] theorem beginStep_buf : (beginStep s).buf = s.buf := rfl
@[simp] theorem beginStep_draws : (beginStep s).draws = s.draws := rfl
@[simp] theorem beginStep_port : (beginStep s).port = none := rfl
@[simp] theorem beginStep_host : (beginStep s).host = s.host := rfl
@[simp] theorem beginStep_rstN : (beginStep s).rstN = s.rstN.tail := rfl
@[simp] theorem beginStep_lat : (beginStep s).lat = s.lat := rfl

/-! ### A host move while a command is in flight -/

@[simp] theorem waitMove_params (c : InFlight) (k : Nat) : (waitMove c k s).params = s.params := rfl
@[simp] theorem waitMove_status (c : InFlight) (k : Nat) : (waitMove c k s).status = s.status := rfl
@[simp] theorem waitMove_offset (c : InFlight) (k : Nat) : (waitMove c k s).offset = s.offset := rfl
@[simp] theorem waitMove_length (c : InFlight) (k : Nat) : (waitMove c k s).length = s.length := rfl
@[simp] theorem waitMove_src (c : InFlight) (k : Nat) : (waitMove c k s).src = s.src := rfl
@[simp] theorem waitMove_tag (c : InFlight) (k : Nat) : (waitMove c k s).tag = s.tag := rfl
@[simp] theorem waitMove_data (c : InFlight) (k : Nat) : (waitMove c k s).data = s.data := rfl
@[simp] theorem waitMove_crcAcc (c : InFlight) (k : Nat) : (waitMove c k s).crcAcc = s.crcAcc := rfl
@[simp] theorem waitMove_result (c : InFlight) (k : Nat) : (waitMove c k s).result = s.result := rfl
@[simp] theorem waitMove_next (c : InFlight) (k : Nat) : (waitMove c k s).next = s.next := rfl
@[simp] theorem waitMove_crcPriv (c : InFlight) (k : Nat) : (waitMove c k s).crcPriv = s.crcPriv := rfl
@[simp] theorem waitMove_inFlight (c : InFlight) (k : Nat) : (waitMove c k s).inFlight = some { c with wait := k } := rfl
@[simp] theorem waitMove_buf (c : InFlight) (k : Nat) : (waitMove c k s).buf = s.buf := rfl
@[simp] theorem waitMove_draws (c : InFlight) (k : Nat) : (waitMove c k s).draws = s.draws := rfl
@[simp] theorem waitMove_port (c : InFlight) (k : Nat) : (waitMove c k s).port = s.port := rfl
@[simp] theorem waitMove_host (c : InFlight) (k : Nat) : (waitMove c k s).host = s.host := rfl
@[simp] theorem waitMove_rstN (c : InFlight) (k : Nat) : (waitMove c k s).rstN = s.rstN := rfl
@[simp] theorem waitMove_lat (c : InFlight) (k : Nat) : (waitMove c k s).lat = s.lat := rfl

/-! ### A reset edge (70_reset_and_hazards.md R107) -/

@[simp] theorem resetEdge_params : (resetEdge s).params = s.params := rfl
@[simp] theorem resetEdge_status : (resetEdge s).status = Status.reset := rfl
@[simp] theorem resetEdge_offset : (resetEdge s).offset = 0x00000000#32 := rfl
@[simp] theorem resetEdge_length : (resetEdge s).length = 0x00000000#32 := rfl
@[simp] theorem resetEdge_src : (resetEdge s).src = 0x00000000#32 := rfl
@[simp] theorem resetEdge_tag : (resetEdge s).tag = 0x00000000#32 := rfl
@[simp] theorem resetEdge_data : (resetEdge s).data = 0x00000000#32 := rfl
@[simp] theorem resetEdge_crcAcc : (resetEdge s).crcAcc = 0xFFFFFFFF#32 := rfl
@[simp] theorem resetEdge_result : (resetEdge s).result = 0x00000000#32 := rfl
@[simp] theorem resetEdge_next : (resetEdge s).next = 0x00000000#32 := rfl
@[simp] theorem resetEdge_crcPriv : (resetEdge s).crcPriv = Config.crcInit := rfl
@[simp] theorem resetEdge_inFlight : (resetEdge s).inFlight = none := rfl
@[simp] theorem resetEdge_buf : (resetEdge s).buf = bufAfterReset s := rfl
@[simp] theorem resetEdge_draws : (resetEdge s).draws = s.draws := rfl
@[simp] theorem resetEdge_port : (resetEdge s).port = s.port := rfl
@[simp] theorem resetEdge_host : (resetEdge s).host = s.host := rfl
@[simp] theorem resetEdge_rstN : (resetEdge s).rstN = s.rstN := rfl
@[simp] theorem resetEdge_lat : (resetEdge s).lat = s.lat := rfl

/-! ### The operands a command runs on -/

theorem operands_of_inFlight {s : State} {c : InFlight} (h : s.inFlight = some c) : operands s = c.ops := by
  simp [operands, h]

theorem operands_of_idle {s : State} (h : s.inFlight = none) : operands s = sampleOperands s := by
  simp [operands, h]

@[simp] theorem operands_beginStep : operands (beginStep s) = operands s := rfl

@[simp] theorem operands_launchCmd (w : Word) (k : Nat) : operands (launchCmd w k s) = sampleOperands s := rfl

/-! ### `STATUS` -/

@[simp] theorem Status.completed_busy (st : Status) : st.completed.busy = false := rfl
@[simp] theorem Status.completed_done (st : Status) : st.completed.done = true := rfl
@[simp] theorem Status.completed_err (st : Status) : st.completed.err = st.err := rfl
@[simp] theorem Status.completed_errcode (st : Status) : st.completed.errcode = st.errcode := rfl
@[simp] theorem Status.accepted_busy (st : Status) : st.accepted.busy = true := rfl
@[simp] theorem Status.accepted_done (st : Status) : st.accepted.done = false := rfl
@[simp] theorem Status.accepted_err (st : Status) : st.accepted.err = st.err := rfl
@[simp] theorem Status.accepted_errcode (st : Status) : st.accepted.errcode = st.errcode := rfl
@[simp] theorem Status.failed_busy (e : CmdError) : (Status.failed e).busy = false := rfl
@[simp] theorem Status.failed_done (e : CmdError) : (Status.failed e).done = true := rfl
@[simp] theorem Status.failed_err (e : CmdError) : (Status.failed e).err = true := rfl
@[simp] theorem Status.failed_errcode (e : CmdError) : (Status.failed e).errcode = e.code := rfl
@[simp] theorem Status.hostWrite_busy (st : Status) (w : Word) : (st.hostWrite w).busy = st.busy := rfl
theorem Status.hostWrite_done (st : Status) (w : Word) :
    (st.hostWrite w).done = if w.getLsbD 1 then false else st.done := by
  cases h : w.getLsbD 1 <;> unfold Status.hostWrite <;> rw [h] <;> simp
theorem Status.hostWrite_err (st : Status) (w : Word) :
    (st.hostWrite w).err = if w.getLsbD 2 then false else st.err := by
  cases h : w.getLsbD 2 <;> unfold Status.hostWrite <;> rw [h] <;> simp
theorem Status.hostWrite_errcode (st : Status) (w : Word) :
    (st.hostWrite w).errcode = if w.getLsbD 2 then 0#4 else st.errcode := rfl

end Sys2Proof.Machine
end

