-- ==== Sys2Proof/Laws/Exec.lean ====
section
/-! SUPPORT. What a command can do, said once: each meaning as one equation, and the cases of `exec`. -/

namespace Sys2Proof.Machine

variable {s t : State} {i : Instr} {adv : Bool}

/-! ### The checks of `WRITE_RECORD` -/

/-- The checks of `WRITE_RECORD` in unbounded arithmetic, in their order (60_exceptions.md R90, R91, R93). -/
theorem recordError_eq (p : Config.Params) (x : Operands) :
    recordError p x =
      if p.bufSize < x.o + 12 + x.n then some .bounds
      else if 0 < x.n ∧ x.s ≠ x.o + 8 ∧ p.bufSize < x.s + x.n then some .bounds
      else if 0 < x.n ∧ x.s ≠ x.o + 8 ∧ x.s < x.o + 12 + x.n ∧ x.o < x.s + x.n then some .overlap
      else none := by
  unfold recordError recordLeaves payloadCopied payloadInPlace sourceLeaves sourceMeetsRecord recordEnd
    Config.recordFraming
  simp only [Bool.and_eq_true, decide_eq_true_eq, Bool.not_eq_true', decide_eq_false_iff_not, and_assoc, ne_eq]

theorem recordError_eq_none_iff (p : Config.Params) (x : Operands) :
    recordError p x = none ↔
      x.o + 12 + x.n ≤ p.bufSize ∧
        (0 < x.n → x.s ≠ x.o + 8 → x.s + x.n ≤ p.bufSize ∧ (x.o + 12 + x.n ≤ x.s ∨ x.s + x.n ≤ x.o)) := by
  rw [recordError_eq]
  split_ifs <;> simp <;> omega

theorem recordError_eq_bounds_iff (p : Config.Params) (x : Operands) :
    recordError p x = some .bounds ↔
      p.bufSize < x.o + 12 + x.n ∨ (0 < x.n ∧ x.s ≠ x.o + 8 ∧ p.bufSize < x.s + x.n) := by
  rw [recordError_eq]
  split_ifs <;> simp <;> omega

theorem recordError_eq_overlap_iff (p : Config.Params) (x : Operands) :
    recordError p x = some .overlap ↔
      x.o + 12 + x.n ≤ p.bufSize ∧ x.s + x.n ≤ p.bufSize ∧
        0 < x.n ∧ x.s ≠ x.o + 8 ∧ x.s < x.o + 12 + x.n ∧ x.o < x.s + x.n := by
  rw [recordError_eq]
  split_ifs <;> simp <;> omega

theorem recordError_ne_illegal (p : Config.Params) (x : Operands) : recordError p x ≠ some .illegalCmd := by
  rw [recordError_eq]
  split_ifs <;> simp

/-! ### The meanings -/

theorem execCrcFeed_leaves (h : rangeLeaves s.params (operands s) = true) :
    execCrcFeed s = .next (raiseCmdError .bounds s) := by
  simp [execCrcFeed, h]

theorem execCrcFeed_fits (h : rangeLeaves s.params (operands s) = false) :
    execCrcFeed s = .next (completeCmd
      { s with
        crcAcc := crcUpdate (operands s).crcAcc (readRange s.buf (operands s).o (operands s).n s.draws).1
        draws := (readRange s.buf (operands s).o (operands s).n s.draws).2 }) := by
  simp [execCrcFeed, h]

theorem execChecksum_leaves (h : rangeLeaves s.params (operands s) = true) :
    execChecksum s = .next (raiseCmdError .bounds s) := by
  simp [execChecksum, h]

theorem execChecksum_fits (h : rangeLeaves s.params (operands s) = false) :
    execChecksum s = .next (completeCmd
      { s with
        crcPriv := crcUpdate Config.crcInit (readRange s.buf (operands s).o (operands s).n s.draws).1
        result := crc32 (readRange s.buf (operands s).o (operands s).n s.draws).1
        draws := (readRange s.buf (operands s).o (operands s).n s.draws).2 }) := by
  simp [execChecksum, h, crc32]

/-- The payload a `WRITE_RECORD` reads, and the count of draws after it. -/
def payloadRead (s : State) : List Byte × Nat :=
  readRange s.buf (payloadStart (operands s)) (operands s).n s.draws

@[simp] theorem payloadRead_length (s : State) : (payloadRead s).1.length = (operands s).n :=
  readRange_length _ _ _ _

/-- The checksum of the record a `WRITE_RECORD` writes (41_marshal.md R76). -/
def recordSum (s : State) : Word := crc32 (be32 (operands s).tag ++ (payloadRead s).1)

theorem execWriteRecord_error {e : CmdError} (h : recordError s.params (operands s) = some e) :
    execWriteRecord adv s = .next (raiseCmdError e s) := by
  simp [execWriteRecord, h]

theorem execWriteRecord_fits (h : recordError s.params (operands s) = none) :
    execWriteRecord adv s = .next (completeCmd
      { s with
        buf := writeRecordBytes s.buf (operands s) (payloadRead s).1 (recordSum s)
        draws := (payloadRead s).2
        crcPriv := crcUpdate Config.crcInit (be32 (operands s).tag ++ (payloadRead s).1)
        result := recordSum s
        next := toWord (recordEnd (operands s))
        offset := advanceOffset adv s (toWord (recordEnd (operands s))) }) := by
  simp [execWriteRecord, h, payloadRead, recordSum, crc32]

theorem execPut32_leaves (h : fieldLeaves s.params (operands s) = true) :
    execPut32 adv s = .next (raiseCmdError .bounds s) := by
  simp [execPut32, h]

theorem execPut32_fits (h : fieldLeaves s.params (operands s) = false) :
    execPut32 adv s = .next (completeCmd
      { s with
        buf := s.buf.writeRange (operands s).o (be32 (operands s).data)
        next := toWord (fieldEnd (operands s))
        offset := advanceOffset adv s (toWord (fieldEnd (operands s))) }) := by
  simp [execPut32, h]

/-- What no command writes. -/
structure EngineFrame (s t : State) : Prop where
  params : t.params = s.params
  status : t.status = s.status
  length : t.length = s.length
  src : t.src = s.src
  tag : t.tag = s.tag
  data : t.data = s.data
  port : t.port = s.port
  host : t.host = s.host
  rstN : t.rstN = s.rstN
  lat : t.lat = s.lat

/-- A command that is run ends with an error, or completes after writes that keep the frame, the canonical form of `BUF`
and its bound. -/
theorem exec_cases (h : exec i s = .next t) :
    (∃ e, t = raiseCmdError e s) ∨
      ∃ u, t = completeCmd u ∧ EngineFrame s u ∧ (s.buf.wf → u.buf.wf) ∧ (CellsInside s → CellsInside u) := by
  cases i with
  | nop =>
    obtain rfl : completeCmd s = t := by injection h
    exact .inr ⟨s, rfl, ⟨rfl, rfl, rfl, rfl, rfl, rfl, rfl, rfl, rfl, rfl⟩, id, id⟩
  | crcInit =>
    obtain rfl : completeCmd { s with crcAcc := Config.crcInit } = t := by injection h
    exact .inr ⟨_, rfl, ⟨rfl, rfl, rfl, rfl, rfl, rfl, rfl, rfl, rfl, rfl⟩, id, id⟩
  | crcFeed =>
    have h : execCrcFeed s = .next t := h
    cases hl : rangeLeaves s.params (operands s) with
    | true =>
      rw [execCrcFeed_leaves hl] at h
      injection h with h
      exact .inl ⟨_, h.symm⟩
    | false =>
      rw [execCrcFeed_fits hl] at h
      injection h with h
      exact .inr ⟨_, h.symm, ⟨rfl, rfl, rfl, rfl, rfl, rfl, rfl, rfl, rfl, rfl⟩, id, id⟩
  | crcFinal =>
    have h : execCrcFinal s = .next t := h
    injection h with h
    exact .inr ⟨_, h.symm, ⟨rfl, rfl, rfl, rfl, rfl, rfl, rfl, rfl, rfl, rfl⟩, id, id⟩
  | checksum =>
    have h : execChecksum s = .next t := h
    cases hl : rangeLeaves s.params (operands s) with
    | true =>
      rw [execChecksum_leaves hl] at h
      injection h with h
      exact .inl ⟨_, h.symm⟩
    | false =>
      rw [execChecksum_fits hl] at h
      injection h with h
      exact .inr ⟨_, h.symm, ⟨rfl, rfl, rfl, rfl, rfl, rfl, rfl, rfl, rfl, rfl⟩, id, id⟩
  | writeRecord adv =>
    have h : execWriteRecord adv s = .next t := h
    cases he : recordError s.params (operands s) with
    | some e =>
      rw [execWriteRecord_error he] at h
      injection h with h
      exact .inl ⟨_, h.symm⟩
    | none =>
      rw [execWriteRecord_fits he] at h
      injection h with h
      have hfit : recordEnd (operands s) ≤ s.params.bufSize := by
        by_contra hlt
        have : recordLeaves s.params (operands s) = true := decide_eq_true (not_le.1 hlt)
        simp [recordError, this] at he
      refine .inr ⟨_, h.symm, ⟨rfl, rfl, rfl, rfl, rfl, rfl, rfl, rfl, rfl, rfl⟩, ?_, ?_⟩
      · exact fun hw => wf_writeRecordBytes hw _ _ _
      · exact fun hc => writeRecordBytes_inside hc (payloadRead_length s) hfit _
  | put32 adv =>
    have h : execPut32 adv s = .next t := h
    cases hl : fieldLeaves s.params (operands s) with
    | true =>
      rw [execPut32_leaves hl] at h
      injection h with h
      exact .inl ⟨_, h.symm⟩
    | false =>
      rw [execPut32_fits hl] at h
      injection h with h
      have hfit : (operands s).o + 4 ≤ s.params.bufSize := not_lt.1 (of_decide_eq_false hl)
      refine .inr ⟨_, h.symm, ⟨rfl, rfl, rfl, rfl, rfl, rfl, rfl, rfl, rfl, rfl⟩, ?_, ?_⟩
      · exact fun hw => Memory.wf_writeRange hw _ _
      · exact fun hc => Memory.writeRange_inside hc (by simpa using hfit)

end Sys2Proof.Machine
end

