-- ==== Sys2Proof/Laws/HostScript.lean ====
section
/-! SUPPORT. The labels of a script and the lines of a `W8S`, said once. -/

namespace Sys2Proof.Machine

@[simp] theorem definedLabels_append (a b : List ScriptLine) :
    definedLabels (a ++ b) = definedLabels a ++ definedLabels b := by
  induction a with
  | nil => rfl
  | cons line rest ih => cases line <;> simp [definedLabels, ih]

@[simp] theorem usedLabels_append (a b : List ScriptLine) : usedLabels (a ++ b) = usedLabels a ++ usedLabels b := by
  induction a with
  | nil => rfl
  | cons line rest ih => cases line <;> simp [usedLabels, ih]

/-- A label is found exactly when the script defines it. -/
theorem findLabel_isSome_iff (l : Label) (script : List ScriptLine) (k : Nat) :
    (findLabel l script k).isSome = true ↔ l ∈ definedLabels script := by
  induction script generalizing k with
  | nil => simp [findLabel, definedLabels]
  | cons line rest ih =>
    unfold findLabel
    split
    · rename_i h
      subst h
      simp [definedLabels]
    · rename_i h
      rw [ih]
      cases line with
      | label q =>
        have hne : l ≠ q := fun e => h (by rw [e])
        simp [definedLabels, hne]
      | _ => rfl

/-- A `W8S` whose bytes all have an offset below 2^31 writes byte `k` at `i + k` (30_encoding.md R65). -/
theorem expandW8s_of_fits {i : Nat} {bytes : List Byte} (h : i + bytes.length ≤ Config.maxBufSize) :
    ∃ lines, expandW8s i bytes = some lines ∧ lines.length = bytes.length ∧
      ∀ (k : Nat) (b : Byte), bytes[k]? = some b → lines[k]? = some (ScriptLine.w8 (BitVec.ofNat 31 (i + k)) b) := by
  induction bytes generalizing i with
  | nil => exact ⟨[], rfl, rfl, fun _ _ h => nomatch h⟩
  | cons b rest ih =>
    rw [List.length_cons] at h
    obtain ⟨lines, hl, hlen, hget⟩ := ih (i := i + 1) (by omega)
    refine ⟨.w8 (BitVec.ofNat 31 i) b :: lines, ?_, by simp [hlen], ?_⟩
    · rw [expandW8s, if_pos (by omega), hl, Option.map_some]
    · intro k c hk
      cases k with
      | zero => simpa using hk
      | succ j => rw [List.getElem?_cons_succ, hget j c (by simpa using hk), show i + 1 + j = i + (j + 1) by omega]

/-- A `W8S` that reaches offset 2^31 has no expansion. -/
theorem expandW8s_eq_none {i : Nat} {bytes : List Byte} (hi : i ≤ Config.maxBufSize)
    (h : Config.maxBufSize < i + bytes.length) : expandW8s i bytes = none := by
  induction bytes generalizing i with
  | nil => simp at h; omega
  | cons b rest ih =>
    rw [List.length_cons] at h
    rw [expandW8s]
    split
    · rw [ih (by omega) (by omega), Option.map_none]
    · rfl

/-- The lines of a `W8S` define and use no label. -/
theorem expandW8s_labels {i : Nat} {bytes : List Byte} {lines : List ScriptLine} (h : expandW8s i bytes = some lines) :
    definedLabels lines = [] ∧ usedLabels lines = [] := by
  induction bytes generalizing i lines with
  | nil => injection h with h; subst h; exact ⟨rfl, rfl⟩
  | cons b rest ih =>
    rw [expandW8s] at h
    split at h
    · obtain ⟨ls, hls, rfl⟩ := Option.map_eq_some_iff.1 h
      have hrest := ih hls
      exact ⟨hrest.1, hrest.2⟩
    · cases h

end Sys2Proof.Machine
end

