-- ==== Sys2Proof/Laws/PerInstr.lean ====
section
/-! SUPPORT. Statements made command by command: every command's word is legal (30_encoding.md R60). -/

/-- The fields of the command pass every check of R57 to R59. -/
def Sys2Proof.Laws.EncodesLegal.Statement (i : Sys2Proof.Instr) : Prop := i.wellFormed = true

namespace Sys2Proof.Laws.EncodesLegal

theorem nop : Statement .nop := by unfold Statement; decide
theorem crcInit : Statement .crcInit := by unfold Statement; decide
theorem crcFeed : Statement .crcFeed := by unfold Statement; decide
theorem crcFinal : Statement .crcFinal := by unfold Statement; decide
theorem checksum : Statement .checksum := by unfold Statement; decide
theorem writeRecord (adv : Bool) : Statement (.writeRecord adv) := by cases adv <;> unfold Statement <;> decide
theorem put32 (adv : Bool) : Statement (.put32 adv) := by cases adv <;> unfold Statement <;> decide

end Sys2Proof.Laws.EncodesLegal
end

