-- ==== Sys2Proof/Laws/Port.lean ====
section
/-! SUPPORT. What a host transfer can do, said once: where transfers land, what each completion is, and the cases of a host
move. -/

namespace Sys2Proof.Machine

variable {s t : State}

/-- An aligned word transfer at a register's offset reaches that register (20_memory.md R37). -/
@[simp] theorem target_reg (p : Config.Params) (we : Bool) (r : Reg) (v : Word) :
    target p ⟨we, r.addr, .word, v⟩ = .reg r := by
  cases r <;>
    simp [target, regTarget, regAt, Reg.all, Reg.addr, Config.regWindowEnd, Config.lastRegAddr, List.find?]

/-- The register at an address is the one whose offset it is. -/
theorem regAt_addr {a : Word} {r : Reg} (h : regAt a = some r) : r.addr = a := by
  have := List.find?_some h
  simpa using this

theorem target_eq_reg {p : Config.Params} {tr : Transfer} {r : Reg} (h : target p tr = .reg r) :
    tr.size = .word ∧ tr.addr = r.addr := by
  unfold target at h
  split at h
  · cases h
  · split at h
    · unfold regTarget at h
      split at h
      · split at h
        · rename_i hc _ q hq
          obtain rfl : q = r := by injection h
          exact ⟨hc.1, (regAt_addr hq).symm⟩
        · cases h
      · cases h
    · split at h
      · unfold cellTarget at h
        split at h <;> cases h
      · cases h

/-- A transfer that reaches a cell of `BUF` reaches one inside it (R36, R38). -/
theorem target_eq_cell {p : Config.Params} {tr : Transfer} {i : Nat} (h : target p tr = .cell i) :
    tr.size = .byte ∧ tr.addr.toNat = Config.bufBase + i ∧ i < p.bufSize := by
  unfold target at h
  split at h
  · cases h
  · split at h
    · unfold regTarget at h
      split at h
      · split at h <;> cases h
      · cases h
    · split at h
      · rename_i hin
        unfold cellTarget at h
        split at h
        · rename_i hb
          injection h with h
          refine ⟨hb, ?_, ?_⟩ <;> omega
        · cases h
      · cases h

/-- An aligned word transfer at or below 0x24 reaches a register: every aligned address there is one (R36, R37). -/
theorem target_of_register {p : Config.Params} {tr : Transfer} (hs : tr.size = .word)
    (ha : tr.addr.toNat % 4 = 0) (hl : tr.addr.toNat ≤ Config.lastRegAddr) : ∃ r, target p tr = .reg r := by
  obtain ⟨we, a, size, v⟩ := tr
  obtain rfl : size = .word := hs
  suffices h : ∃ r : Reg, r.addr = a by
    obtain ⟨r, rfl⟩ := h
    exact ⟨r, target_reg p we r v⟩
  obtain ⟨n, rfl, ha, hl⟩ : ∃ n, a = BitVec.ofNat 32 n ∧ n % 4 = 0 ∧ n ≤ 0x24 := ⟨a.toNat, by simp, ha, hl⟩
  have hn : n = 0 ∨ n = 4 ∨ n = 8 ∨ n = 12 ∨ n = 16 ∨ n = 20 ∨ n = 24 ∨ n = 28 ∨ n = 32 ∨ n = 36 := by omega
  rcases hn with rfl | rfl | rfl | rfl | rfl | rfl | rfl | rfl | rfl | rfl
  exacts [⟨.cmd, rfl⟩, ⟨.status, rfl⟩, ⟨.offset, rfl⟩, ⟨.length, rfl⟩, ⟨.src, rfl⟩, ⟨.tag, rfl⟩, ⟨.data, rfl⟩,
    ⟨.crcAcc, rfl⟩, ⟨.result, rfl⟩, ⟨.next, rfl⟩]

/-- A byte transfer inside the buffer window reaches its cell (R36, R38). -/
theorem target_of_cell {p : Config.Params} {tr : Transfer} {i : Nat} (hs : tr.size = .byte)
    (ha : tr.addr.toNat = Config.bufBase + i) (hi : i < p.bufSize) : target p tr = .cell i := by
  have h1 : ¬ tr.addr.toNat < Config.regWindowEnd := by
    rw [ha]
    unfold Config.bufBase Config.regWindowEnd
    omega
  unfold target cellTarget
  rw [if_neg (by simp [hs]), if_neg h1, if_pos ⟨by omega, by omega⟩, if_pos hs, ha, Nat.add_sub_cancel_left]

/-- Every other transfer reaches nothing (R36 to R39). -/
theorem target_of_neither {p : Config.Params} {tr : Transfer}
    (hr : ¬ (tr.size = .word ∧ tr.addr.toNat % 4 = 0 ∧ tr.addr.toNat ≤ Config.lastRegAddr))
    (hc : ¬ (tr.size = .byte ∧ Config.bufBase ≤ tr.addr.toNat ∧ tr.addr.toNat < Config.bufBase + p.bufSize)) :
    target p tr = .busError := by
  unfold target regTarget cellTarget
  rw [if_neg hr]
  split_ifs with h1 h2 h3 h4 <;> first | rfl | exact absurd ⟨h4, h3⟩ hc

/-- The address of a cell fits in 32 bits, because `BUF_SIZE` is at most 2^31 (R36). -/
theorem cellAddr_toNat {p : Config.Params} (hp : p.legal) {i : Nat} (hi : i < p.bufSize) :
    (BitVec.ofNat 32 (Config.bufBase + i)).toNat = Config.bufBase + i := by
  have hmax : p.bufSize ≤ 2 ^ 31 := hp.2
  rw [BitVec.toNat_ofNat]
  refine Nat.mod_eq_of_lt ?_
  unfold Config.bufBase
  omega

@[simp] theorem regAt_reg (r : Reg) : regAt r.addr = some r := by cases r <;> rfl

theorem completeTransfer_regWrite {tr : Transfer} {r : Reg} (h : target s.params tr = .reg r) (hw : tr.we = true) :
    completeTransfer tr s = { writeReg r tr.wdata s with port := some ⟨none, false⟩ } := by
  simp [completeTransfer, h, hw]

theorem completeTransfer_regRead {tr : Transfer} {r : Reg} (h : target s.params tr = .reg r) (hw : tr.we = false) :
    completeTransfer tr s = { s with port := some ⟨some (readReg r s), false⟩ } := by
  simp [completeTransfer, h, hw]

theorem completeTransfer_cellWrite {tr : Transfer} {i : Nat} (h : target s.params tr = .cell i) (hw : tr.we = true) :
    completeTransfer tr s = { writeCell i tr.wdata s with port := some ⟨none, false⟩ } := by
  simp [completeTransfer, h, hw]

theorem completeTransfer_cellRead {tr : Transfer} {i : Nat} (h : target s.params tr = .cell i) (hw : tr.we = false) :
    completeTransfer tr s =
      { s with
        draws := (readCell s.buf i s.draws).2
        port := some ⟨some ((readCell s.buf i s.draws).1.setWidth 32), false⟩ } := by
  simp [completeTransfer, h, hw]

theorem completeTransfer_busError {tr : Transfer} (h : target s.params tr = .busError) :
    completeTransfer tr s = { s with port := some ⟨if tr.we then none else some 0#32, true⟩ } := by
  cases hw : tr.we <;> simp [completeTransfer, h, hw]

@[simp] theorem acceptCmd_of_err (h : s.status.err = true) (w : Word) : acceptCmd w s = s := by
  simp [acceptCmd, h]

theorem acceptCmd_of_noErr (h : s.status.err = false) (w : Word) :
    acceptCmd w s = { launchCmd w (s.lat.headD 0) s with lat := s.lat.tail } := by
  simp [acceptCmd, h]

/-- Everything a completed transfer can do to the state, but for the port. -/
inductive TransferEffect (tr : Transfer) (s : State) : State → Prop where
  /-- A read, a bus error, a write to `RESULT` or `NEXT`, or a discarded `CMD` write. -/
  | nothing (d : Nat) : TransferEffect tr s { s with draws := d }
  /-- An accepted `CMD` write (60_exceptions.md R95). -/
  | accept (k : Nat) (l : List Nat) (hw : tr.we = true) (haddr : tr.addr = 0x00#32) (hok : s.status.err = false) :
      TransferEffect tr s { launchCmd tr.wdata k s with lat := l }
  /-- A `STATUS` write (10_state.md R28). -/
  | status (hw : tr.we = true) (haddr : tr.addr = 0x04#32) (hsize : tr.size = .word) :
      TransferEffect tr s (writeStatus tr.wdata s)
  /-- A write to an operand register. -/
  | operand (o n src tag data acc : Word) (hw : tr.we = true) :
      TransferEffect tr s { s with offset := o, length := n, src := src, tag := tag, data := data, crcAcc := acc }
  /-- A write to a cell inside `BUF`. -/
  | cell (i : Nat) (b : Byte) (hi : i < s.params.bufSize) (hw : tr.we = true) :
      TransferEffect tr s { s with buf := s.buf.set i b }

theorem completeTransfer_cases (tr : Transfer) (s : State) :
    ∃ p u, completeTransfer tr s = { u with port := some p } ∧ TransferEffect tr s u := by
  cases ht : target s.params tr with
  | reg r =>
    obtain ⟨hsize, haddr⟩ := target_eq_reg ht
    cases hw : tr.we with
    | false => exact ⟨_, _, completeTransfer_regRead ht hw, .nothing s.draws⟩
    | true =>
      rw [completeTransfer_regWrite ht hw]
      cases r with
      | cmd =>
        cases he : s.status.err with
        | true => exact ⟨⟨none, false⟩, s, by simp [writeReg, he], .nothing s.draws⟩
        | false =>
          exact ⟨⟨none, false⟩, _, by simp only [writeReg, acceptCmd_of_noErr he], .accept (s.lat.headD 0) s.lat.tail hw haddr he⟩
      | status => exact ⟨⟨none, false⟩, writeStatus tr.wdata s, rfl, .status hw haddr hsize⟩
      | offset => exact ⟨⟨none, false⟩, _, rfl, .operand tr.wdata s.length s.src s.tag s.data s.crcAcc hw⟩
      | length => exact ⟨⟨none, false⟩, _, rfl, .operand s.offset tr.wdata s.src s.tag s.data s.crcAcc hw⟩
      | src => exact ⟨⟨none, false⟩, _, rfl, .operand s.offset s.length tr.wdata s.tag s.data s.crcAcc hw⟩
      | tag => exact ⟨⟨none, false⟩, _, rfl, .operand s.offset s.length s.src tr.wdata s.data s.crcAcc hw⟩
      | data => exact ⟨⟨none, false⟩, _, rfl, .operand s.offset s.length s.src s.tag tr.wdata s.crcAcc hw⟩
      | crcAcc => exact ⟨⟨none, false⟩, _, rfl, .operand s.offset s.length s.src s.tag s.data tr.wdata hw⟩
      | result => exact ⟨⟨none, false⟩, s, rfl, .nothing s.draws⟩
      | next => exact ⟨⟨none, false⟩, s, rfl, .nothing s.draws⟩
  | cell i =>
    obtain ⟨-, -, hi⟩ := target_eq_cell ht
    cases hw : tr.we with
    | true => exact ⟨_, _, completeTransfer_cellWrite ht hw, .cell i (tr.wdata.setWidth 8) hi hw⟩
    | false => exact ⟨_, { s with draws := (readCell s.buf i s.draws).2 }, completeTransfer_cellRead ht hw, .nothing _⟩
  | busError => exact ⟨_, s, completeTransfer_busError ht, .nothing s.draws⟩

@[simp] theorem completeTransfer_host (tr : Transfer) (s : State) : (completeTransfer tr s).host = s.host := by
  obtain ⟨p, u, h, he⟩ := completeTransfer_cases tr s
  rw [h]
  cases he <;> rfl

theorem hostTransfer_of_held {tr : Transfer} (h : held tr s = true) : hostTransfer tr s = s := by
  simp [hostTransfer, h]

theorem hostTransfer_of_free {tr : Transfer} (h : held tr s = false) :
    hostTransfer tr s =
      { completeTransfer tr s with
        host := { s.host with line := s.host.line + 1, lastR32 := lastRead tr (completeTransfer tr s) } } := by
  simp [hostTransfer, h, nextLine]

/-- A label that is found stands where it is found. -/
theorem findLabel_getElem {l : Label} {script : List ScriptLine} {k n : Nat} (h : findLabel l script k = some n) :
    k ≤ n ∧ script[n - k]? = some (.label l) := by
  induction script generalizing k with
  | nil => cases h
  | cons line rest ih =>
    unfold findLabel at h
    split at h
    · rename_i heq
      injection h with h
      subst h
      simp [heq]
    · obtain ⟨hle, hget⟩ := ih h
      refine ⟨by omega, ?_⟩
      rw [show n - k = (n - (k + 1)) + 1 by omega, List.getElem?_cons_succ]
      exact hget

/-- A label that is in a script is found. -/
theorem exists_findLabel {l : Label} {script : List ScriptLine} (h : .label l ∈ script) (k : Nat) :
    ∃ n, findLabel l script k = some n := by
  induction script generalizing k with
  | nil => cases h
  | cons line rest ih =>
    unfold findLabel
    split
    · exact ⟨k, rfl⟩
    · rename_i hne
      rcases List.mem_cons.1 h with heq | hmem
      · exact absurd heq.symm hne
      · exact ih hmem (k + 1)

theorem findLabel_eq_none {l : Label} {script : List ScriptLine} (h : .label l ∉ script) (k : Nat) :
    findLabel l script k = none := by
  cases hf : findLabel l script k with
  | none => rfl
  | some n => exact absurd (List.mem_of_getElem? (findLabel_getElem hf).2) h

/-! ### A host move, line by line -/

theorem hostMove_transfer {line : ScriptLine} {tr : Transfer} (hl : currentLine s = some line)
    (ha : line.act = .transfer tr) : hostMove s = .next (hostTransfer tr s) := by
  simp [hostMove, hl, ha]

theorem hostMove_label {l : Label} (hl : currentLine s = some (.label l)) : hostMove s = .next (nextLine s) := by
  simp [hostMove, hl, ScriptLine.act]

theorem hostMove_bnz {mask : Word} {l : Label} (hl : currentLine s = some (.bnz mask l)) :
    hostMove s = hostBranch mask l s := by
  simp [hostMove, hl, ScriptLine.act]

theorem hostBranch_of_clear {mask : Word} (h : s.host.lastR32 &&& mask = 0#32) (l : Label) :
    hostBranch mask l s = .next (nextLine s) := by
  simp [hostBranch, h]

/-- A `BNZ` whose value and mask share a bit goes to a place where the label stands. -/
theorem hostBranch_of_set {mask : Word} {l : Label} (h : s.host.lastR32 &&& mask ≠ 0#32)
    (hm : .label l ∈ s.host.script) :
    ∃ k, hostBranch mask l s = .next { s with host := { s.host with line := k } } ∧
      s.host.script[k]? = some (.label l) := by
  obtain ⟨k, hk⟩ := exists_findLabel hm 0
  exact ⟨k, by simp [hostBranch, h, hk], (findLabel_getElem hk).2⟩

theorem hostBranch_undefined {mask : Word} {l : Label} (h : s.host.lastR32 &&& mask ≠ 0#32)
    (hm : .label l ∉ s.host.script) : hostBranch mask l s = .fault (.undefinedLabel l) := by
  simp [hostBranch, h, findLabel_eq_none hm]

/-- What a host move can do. -/
theorem hostMove_cases (h : hostMove s = .next t) :
    (currentLine s = none ∧ t = s) ∨
    (∃ k, t = { s with host := { s.host with line := k } }) ∨
    (∃ line tr, currentLine s = some line ∧ line.act = .transfer tr ∧ t = hostTransfer tr s) := by
  unfold hostMove at h
  split at h
  · rename_i hl
    injection h with h
    exact .inl ⟨hl, h.symm⟩
  · rename_i line hl
    split at h
    · rename_i tr ha
      injection h with h
      exact .inr (.inr ⟨line, tr, hl, ha, h.symm⟩)
    · injection h with h
      exact .inr (.inl ⟨_, h.symm⟩)
    · unfold hostBranch at h
      split at h
      · injection h with h
        exact .inr (.inl ⟨_, h.symm⟩)
      · split at h
        · injection h with h
          exact .inr (.inl ⟨_, h.symm⟩)
        · cases h

end Sys2Proof.Machine
end

