-- ==== Sys2Proof/Laws/Step.lean ====
section
/-! SUPPORT. What a step can do, said once: its equations and its cases. -/

namespace Sys2Proof.Machine

variable {s t : State} {c : InFlight}

theorem resetNow_iff (s : State) : resetNow s = true ↔ s.rstN.head? = some false := by
  simp [resetNow]

theorem resetNow_eq_false (h : s.rstN.head? ≠ some false) : resetNow s = false := by
  simpa [resetNow] using h

theorem step_reset (h : resetNow s = true) : step s = .next (resetEdge (beginStep s)) := by
  simp [step, h]

theorem step_idle (h : resetNow s = false) (hf : s.inFlight = none) : step s = hostMove (beginStep s) := by
  simp [step, h, hf]

theorem step_engine (h : resetNow s = false) (hf : s.inFlight = some c) (hw : c.wait = 0) :
    step s = engineMove c (beginStep s) := by
  simp [step, h, hf, hw]

theorem step_wait (h : resetNow s = false) (hf : s.inFlight = some c) {k : Nat} (hw : c.wait = k + 1) :
    step s = hostMove (waitMove c k (beginStep s)) := by
  simp [step, h, hf, hw]

/-- What a step can do. -/
theorem step_cases (h : step s = .next t) :
    (resetNow s = true ∧ t = resetEdge (beginStep s)) ∨
    (resetNow s = false ∧ s.inFlight = none ∧ hostMove (beginStep s) = .next t) ∨
    (∃ c, resetNow s = false ∧ s.inFlight = some c ∧ c.wait = 0 ∧ engineMove c (beginStep s) = .next t) ∨
    (∃ c k, resetNow s = false ∧ s.inFlight = some c ∧ c.wait = k + 1 ∧
      hostMove (waitMove c k (beginStep s)) = .next t) := by
  cases hr : resetNow s with
  | true =>
    rw [step_reset hr] at h
    injection h with h
    exact .inl ⟨rfl, h.symm⟩
  | false =>
    cases hf : s.inFlight with
    | none => exact .inr (.inl ⟨rfl, rfl, by rwa [step_idle hr hf] at h⟩)
    | some c =>
      cases hw : c.wait with
      | zero => exact .inr (.inr (.inl ⟨c, rfl, rfl, hw, by rwa [step_engine hr hf hw] at h⟩))
      | succ k => exact .inr (.inr (.inr ⟨c, k, rfl, rfl, hw, by rwa [step_wait hr hf hw] at h⟩))

/-- What the engine's move can do: an error, or a completion after writes within the frame. -/
theorem engineMove_cases (h : engineMove c s = .next t) :
    (∃ e, t = raiseCmdError e s) ∨
      ∃ u, t = completeCmd u ∧ EngineFrame s u ∧ (s.buf.wf → u.buf.wf) ∧ (CellsInside s → CellsInside u) := by
  unfold engineMove at h
  split at h
  · exact exec_cases h
  · injection h with h
    exact .inl ⟨_, h.symm⟩

/-- A run of one step more is a step and the rest of the run, for any machine. -/
theorem run_succ (M : Host.Core) {s t : M.State} (h : M.step s = .next t) (k : Nat) :
    M.run (k + 1) s = M.run k t := by
  simp only [Host.Core.run, h]

theorem run_succ_of_step (h : step s = .next t) (k : Nat) :
    Sys2Proof.core.run (k + 1) s = Sys2Proof.core.run k t :=
  run_succ Sys2Proof.core h k

@[simp] theorem run_zero (s : State) : Sys2Proof.core.run 0 s = .next s := rfl

theorem powerOn_buf_wf (p : Config.Params) : (State.powerOn p).buf.wf := List.Pairwise.nil

theorem reset_buf_wf : State.reset.buf.wf := powerOn_buf_wf _

end Sys2Proof.Machine
end

