-- ==== Sys2Proof/Tests/Slice0.lean ====
section
/-! SUPPORT. Tests of the model, with expected results from spec/95_test_vectors.md and the rules' own examples, and for each
statement with hypotheses a state and operands that meet them. -/

namespace Sys2Proof.Machine.Tests

/-! ### Small states -/

/-- The state a step or a command answers, if it answers one. -/
def ended (o : Host.Outcome State Fault Refusal) : Option State :=
  match o with
  | .next s => some s
  | .fault _ => none
  | .refused _ => none

/-- `STATUS` as a host would read it after a command. -/
def statusAfter (i : Instr) (s : State) : Option Word := (ended (exec i s)).map (fun t => t.status.word)

/-- After reset, with `bytes` written from offset `a` on. -/
def holding (a : Nat) (bytes : List Byte) : State := { State.reset with buf := Memory.writeRange [] a bytes }

/-- "IEND" at 0, and `LENGTH = 4`. -/
def iend : State := { holding 0 [0x49#8, 0x45#8, 0x4E#8, 0x44#8] with length := 4#32 }

/-- The start state of V-W4 to V-W14: `BUF[i] = i` for every `i`, `TAG` "TEST". -/
def counting : State :=
  { State.reset with
    tag := 0x54455354#32
    buf := (List.range 256).map (fun i => (i, BitVec.ofNat 8 i)) }

/-- The operands of a command, put into the registers. -/
def withOperands (o n src : Word) (s : State) : State := { s with offset := o, length := n, src := src }

/-- The command word `w` in flight, with `wait` host moves of latency. -/
def running (w : Word) (wait : Nat) (s : State) : State := launchCmd w wait s

/-- `STATUS = 0x26`: a command has ended with `BOUNDS`. -/
def failed : State := raiseCmdError .bounds State.reset

/-- A host at the first line of a script. -/
def scripted (script : List ScriptLine) (s : State) : State := { s with host := { s.host with script := script } }

/-- The three lines a `WAIT` stands for (R65). -/
def pollLoop (l : Label) : List ScriptLine := [.label l, .r32 .status none, .bnz 0x1#32 l]

/-- The word the port shows after a step, when a read completed without a bus error. -/
def portWord (s : State) : Option Word :=
  match s.port with
  | some ⟨d, false⟩ => d
  | _ => none

/-! ### WellFormed: an ill-formed word for each check -/

theorem test_reserved_op_is_ill_formed : CommandWord.wellFormed ⟨7#4, 0#4, false, 0#23⟩ = false := by decide
theorem test_rsv0_is_ill_formed : CommandWord.wellFormed ⟨0#4, 1#4, false, 0#23⟩ = false := by decide
theorem test_rsv1_is_ill_formed : CommandWord.wellFormed ⟨5#4, 0#4, false, 1#23⟩ = false := by decide
theorem test_adv_with_checksum_is_ill_formed : CommandWord.wellFormed ⟨4#4, 0#4, true, 0#23⟩ = false := by decide
theorem test_adv_with_put32_is_well_formed : CommandWord.wellFormed ⟨6#4, 0#4, true, 0#23⟩ = true := by decide

/-! ### Decoding: words written out from R56 and R57, the reserved fields and `ADV` in their places -/

theorem test_decode_nop : decodeTableWord 32 0b00000000000000000000000000000000 = some .nop := by decide
theorem test_decode_crc_init : decodeTableWord 32 0b00000000000000000000000000000001 = some .crcInit := by decide
theorem test_decode_crc_feed : decodeTableWord 32 0b00000000000000000000000000000010 = some .crcFeed := by decide
theorem test_decode_crc_final : decodeTableWord 32 0b00000000000000000000000000000011 = some .crcFinal := by decide
theorem test_decode_checksum : decodeTableWord 32 0b00000000000000000000000000000100 = some .checksum := by decide
theorem test_decode_write_record :
    decodeTableWord 32 0b00000000000000000000000000000101 = some (.writeRecord false) := by decide
theorem test_decode_write_record_adv :
    decodeTableWord 32 0b00000000000000000000000100000101 = some (.writeRecord true) := by decide
theorem test_decode_put32 : decodeTableWord 32 0b00000000000000000000000000000110 = some (.put32 false) := by decide
theorem test_decode_put32_adv :
    decodeTableWord 32 0b00000000000000000000000100000110 = some (.put32 true) := by decide

/-- The illegal words of V-X2 to V-X8, V-I2, V-K6 and V-W18. -/
theorem test_illegal_words :
    [0x100, 0x7, 0xF, 0x104, 0x17, 0x14, 0x10, 0x11, 0x80000004, 0x205].all
      (fun w => decodeTableWord 32 w == none) = true := by decide

theorem test_disassembly :
    disassemble 0x105#32 = .spelled "WRITE_RECORD.ADV" ∧ disassemble 0x7#32 = .illegal 0x7#32 ∧
      assemble "PUT32.ADV" = some 0x106#32 ∧ assemble "PUT64" = none := by decide

/-! ### The commands, from a state in which the registers hold the operands -/

/-- V-X1. -/
theorem test_nop : statusAfter .nop State.reset = some 0x02#32 := by decide

/-- V-I1. -/
theorem test_crc_init :
    (ended (exec .crcInit { State.reset with crcAcc := 0x12345678#32 })).map (fun t => (t.crcAcc, t.status.word)) =
      some (0xFFFFFFFF#32, 0x02#32) := by decide +kernel

/-- V-F1. -/
theorem test_crc_feed_iend :
    (ended (exec .crcFeed iend)).map (fun t => (t.crcAcc, t.offset, t.status.word)) =
      some (0x51BD9F7D#32, 0#32, 0x02#32) := by decide +kernel

/-- V-F5: the sum is 2^32, not 0. -/
theorem test_crc_feed_does_not_wrap :
    statusAfter .crcFeed (withOperands 0xFFFFFFFF#32 1#32 0#32 State.reset) = some 0x26#32 := by decide +kernel

/-- The example of R73. -/
theorem test_crc_final :
    (ended (exec .crcFinal { State.reset with crcAcc := 0x51BD9F7D#32 })).map (fun t => (t.result, t.crcAcc)) =
      some (0xAE426082#32, 0x51BD9F7D#32) := by decide +kernel

/-- The example of R74. -/
theorem test_checksum_iend :
    (ended (exec .checksum iend)).map (fun t => (t.result, t.crcAcc, t.status.word)) =
      some (0xAE426082#32, 0xFFFFFFFF#32, 0x02#32) := by decide +kernel

/-- `n = 0` is legal at `o = BUF_SIZE` and `BOUNDS` past it (R72, R74). -/
theorem test_checksum_at_the_end :
    (statusAfter .checksum (withOperands 256#32 0#32 0#32 State.reset),
      statusAfter .checksum (withOperands 257#32 0#32 0#32 State.reset)) = (some 0x02#32, some 0x26#32) := by
  decide +kernel

/-- V-W4 and V-W5. -/
theorem test_write_record_copied :
    (ended (exec (.writeRecord true) (withOperands 0#32 4#32 0x80#32 counting))).map
        (fun t => (t.buf.take 17 |>.map (fun c => c.2), t.result, t.next, t.offset)) =
      some ([0x00#8, 0x00#8, 0x00#8, 0x04#8, 0x54#8, 0x45#8, 0x53#8, 0x54#8, 0x80#8, 0x81#8, 0x82#8, 0x83#8, 0x95#8, 0x5E#8,
        0x84#8, 0x06#8, 0x10#8], 0x955E8406#32, 0x10#32, 0x10#32) := by decide +kernel

/-- V-W12, V-W14, V-W15: a source that meets the record, ends just before it, and meets its first byte. -/
theorem test_write_record_overlap :
    (statusAfter (.writeRecord false) (withOperands 0#32 8#32 4#32 counting),
      statusAfter (.writeRecord true) (withOperands 20#32 4#32 16#32 counting),
      statusAfter (.writeRecord false) (withOperands 20#32 4#32 17#32 counting)) =
      (some 0x36#32, some 0x02#32, some 0x36#32) := by decide +kernel

/-- V-P2: `PUT32` at the last four bytes. -/
theorem test_put32_at_the_end :
    (ended (exec (.put32 false) { State.reset with offset := 252#32, data := 0xDEADBEEF#32 })).map
        (fun t => (t.buf, t.next, t.offset)) =
      some ([(252, 0xDE#8), (253, 0xAD#8), (254, 0xBE#8), (255, 0xEF#8)], 0x100#32, 252#32) := by decide +kernel

/-- V-P3: one byte further is `BOUNDS` and writes nothing. -/
theorem test_put32_past_the_end :
    (ended (exec (.put32 true) { State.reset with offset := 253#32, data := 0xDEADBEEF#32 })).map
      (fun t => (t.buf, t.next, t.offset, t.status.word)) = some ([], 0#32, 253#32, 0x26#32) := by decide +kernel

/-! ### The CRC-32 function -/

/-- V-C17 and the running register over "12" (95_test_vectors.md 2.1). -/
theorem test_crc_values :
    crc32 [0xDE#8, 0xAD#8, 0xBE#8, 0xEF#8] = 0x7C9CA35A#32 ∧
      crcUpdate 0xFFFFFFFF#32 [0x31#8] = 0x7C231048#32 ∧ crcUpdate 0x7C231048#32 [0x32#8] = 0xB0ACBB32#32 := by
  decide +kernel

/-- Table entries of 95_test_vectors.md 2.1 that R69 does not list. -/
theorem test_crc_table : crcTable 0x55#8 = 0x1B01A57B#32 ∧ crcTable 0xAA#8 = 0x36034AF6#32 := by decide +kernel

/-! ### The host port and the lifecycle -/

/-- V-L1: a `CMD` write while `ERR = 1` is discarded. -/
theorem test_command_after_error_is_discarded :
    completeTransfer ⟨true, 0x00#32, .word, 0x1#32⟩ failed = { failed with port := some ⟨none, false⟩ } := by decide

/-- V-L2 to V-L5. -/
theorem test_status_writes :
    [0x4#32, 0x2#32, 0x6#32, 0xFFFFFFF9#32].map
        (fun v => (completeTransfer ⟨true, 0x04#32, .word, v⟩ failed).status.word) =
      [0x02#32, 0x24#32, 0x00#32, 0x26#32] := by decide +kernel

/-- V-H1, V-H2: the byte is on lane 0 whatever the address. -/
theorem test_buffer_byte :
    portWord (completeTransfer ⟨false, 0x80000005#32, .byte, 0#32⟩
      (completeTransfer ⟨true, 0x80000005#32, .byte, 0xAAAAAA5A#32⟩ State.reset)) = some 0x5A#32 := by decide +kernel

/-- V-H3 to V-H7, V-H10, V-H11: bus errors change nothing. -/
theorem test_bus_errors :
    [(⟨true, 0x80000100#32, .byte, 1#32⟩ : Transfer), ⟨false, 0x80000000#32, .word, 0#32⟩, ⟨true, 0x28#32, .word, 1#32⟩,
      ⟨false, 0x22#32, .word, 0#32⟩, ⟨false, 0x04#32, .byte, 0#32⟩, ⟨true, 0x1000#32, .word, 1#32⟩,
      ⟨false, 0x00#32, .reserved, 0#32⟩, ⟨true, 0x80000000#32, .reserved, 1#32⟩].all
      (fun tr => completeTransfer tr State.reset ==
        { State.reset with port := some ⟨if tr.we then none else some 0#32, true⟩ }) = true := by decide +kernel

/-- V-H8. -/
theorem test_result_is_read_only :
    portWord (completeTransfer ⟨false, 0x20#32, .word, 0#32⟩
      (completeTransfer ⟨true, 0x20#32, .word, 0x12345678#32⟩ { State.reset with result := 0xAE426082#32 })) =
      some 0xAE426082#32 := by decide +kernel

/-- V-L6: with a command in flight, `R32 STATUS` completes and returns 0x0000_0001. -/
theorem test_status_read_while_busy :
    (ended (step (running 0x4#32 1 (scripted [.r32 .status none] iend)))).map (fun t => (portWord t, t.host.line)) =
      some (some 0x00000001#32, 1) := by decide +kernel

/-- V-L7: `R32 RESULT` is held meanwhile. -/
theorem test_result_read_is_held :
    (ended (step (running 0x4#32 1 (scripted [.r32 .result none] iend)))).map (fun t => (portWord t, t.host.line)) =
      some (none, 0) := by decide +kernel

/-- The offsets of R17 reach the registers of R17: `TAG` at 0x14 is stored, `CRC_ACC` at 0x1C is read. -/
theorem test_register_map :
    (completeTransfer ⟨true, 0x14#32, .word, 0x49454E44#32⟩ State.reset).tag = 0x49454E44#32 ∧
      portWord (completeTransfer ⟨false, 0x1C#32, .word, 0#32⟩ State.reset) = some 0xFFFFFFFF#32 := by decide +kernel

/-- R64: a `W32` line keeps the last `R32` value. -/
theorem test_write_keeps_last_read :
    (ended (step { iend with host := ⟨[.w32 .offset 5#32], 0, 0x2A#32⟩ })).map (fun t => (t.offset, t.host.lastR32)) =
      some (5#32, 0x2A#32) := by decide +kernel

/-- R40: a bus error in a script, after which this host goes on (log entry 19). -/
theorem test_host_goes_on_after_a_bus_error :
    (ended (step (scripted [.xfer ⟨true, 0x28#32, .word, 1#32⟩] iend))).map (fun t => (t.port, t.host.line)) =
      some (some ⟨none, true⟩, 1) := by decide +kernel

/-! ### Reset -/

/-- V-R1. -/
theorem test_idle_reset :
    (ended (step { iend with rstN := [false], crcAcc := 0#32 })).map
        (fun t => (t.length, t.crcAcc, t.buf == iend.buf, t.status.word)) =
      some (0#32, 0xFFFFFFFF#32, true, 0#32) := by decide +kernel

/-- V-R2: the 18 bytes of the record become unwritten, the bytes beside it stay. -/
theorem test_reset_during_write_record :
    (ended (step { running 0x5#32 0 (withOperands 0x40#32 6#32 0x80#32 counting) with rstN := [false] })).map
        (fun t => (t.buf.length, t.buf.get 0x3F, t.buf.get 0x40, t.buf.get 0x51, t.buf.get 0x52)) =
      some (238, some 0x3F#8, none, none, some 0x52#8) := by decide +kernel

/-! ### The host's questions: a word placed, then one step -/

theorem test_placed_checksum_runs :
    (ended (step (iend.withFetchWord 32 0x4))).map (fun t => (t.result, t.status.word)) =
      some (0xAE426082#32, 0x02#32) := by decide +kernel

theorem test_every_table_word_runs_from_reset :
    [0x0, 0x1, 0x2, 0x3, 0x4, 0x5, 0x105, 0x6, 0x106].map
        (fun w => (ended (step (State.reset.withFetchWord 32 w))).map (fun t => t.status.word)) =
      List.replicate 9 (some 0x02#32) := by decide +kernel

/-- A reserved word: `ILLEGAL_CMD` (R85, V-X3). -/
theorem test_placed_illegal_word :
    (ended (step (State.reset.withFetchWord 32 0x7))).map (fun t => t.status.word) = some 0x16#32 := by decide +kernel

/-! ### The host's script -/

/-- R64: `BNZ 0x1, w` goes back to its label after `STATUS` read as 0x0000_0001, and on after it read as 0x0000_0002. -/
theorem test_bnz_of_a_poll_loop :
    [0x1#32, 0x2#32].map (fun v =>
        (ended (step { State.reset with host := ⟨pollLoop 0, 2, v⟩ })).map (fun t => t.host.line)) =
      [some 0, some 3] := by decide +kernel

/-- R65, R8: the last `BUF` offset a line can name is 2^31 - 1; a `W8S` that goes past it does not come back to 0. -/
theorem test_w8s_does_not_wrap :
    (Pseudo.w8s 0x7FFFFFFF#31 [0xA1#8]).expand 0 = some [.w8 0x7FFFFFFF#31 0xA1#8] ∧
      (Pseudo.w8s 0x7FFFFFFF#31 [0xA1#8, 0xA2#8]).expand 0 = none := by decide +kernel

/-- The byte lines of `W8S BUF[24], 0x08 0x03` in program P4. -/
theorem test_w8s :
    (Pseudo.w8s 24#31 [0x08#8, 0x03#8]).expand 0 = some [.w8 24#31 0x08#8, .w8 25#31 0x03#8] := by decide +kernel

/-! ### Witnesses: for each statement with hypotheses, a state and operands that meet them -/

/-- A state of each kind the invariant admits: idle, busy, failed. -/
theorem witness_consistent_states :
    Consistent iend ∧ Consistent (running 0x4#32 1 iend) ∧ Consistent failed ∧ Consistent (State.powerOn ⟨12⟩) :=
  ⟨by decide +kernel, by decide +kernel, by decide +kernel, by decide +kernel⟩

theorem witness_DecodeAndEncodeAgree :
    (Instr.put32 true).wellFormed = true ∧ (Instr.nop).wellFormed = true ∧ decode 0x106#32 = .command (.put32 true) := by
  decide

/-- Each clause of R62 at its boundary values, and a word that meets none. -/
theorem witness_IllegalWordsEndWithCodeOne :
    7 ≤ ((0x7#32).extractLsb' 0 4).toNat ∧ 7 ≤ ((0xF#32).extractLsb' 0 4).toNat ∧
    (0x10#32).extractLsb' 4 4 ≠ 0#4 ∧ (0x80#32).extractLsb' 4 4 ≠ 0#4 ∧
    (0x200#32).extractLsb' 9 23 ≠ 0#23 ∧ (0x80000000#32).extractLsb' 9 23 ≠ 0#23 ∧
    ((0x100#32).getLsbD 8 = true ∧ ((0x100#32).extractLsb' 0 4).toNat ≤ 4) ∧
    ((0x104#32).getLsbD 8 = true ∧ ((0x104#32).extractLsb' 0 4).toNat ≤ 4) ∧
    ¬ (7 ≤ ((0x106#32).extractLsb' 0 4).toNat ∨ (0x106#32).extractLsb' 4 4 ≠ 0#4 ∨ (0x106#32).extractLsb' 9 23 ≠ 0#23 ∨
      ((0x106#32).getLsbD 8 = true ∧ ((0x106#32).extractLsb' 0 4).toNat ≤ 4)) ∧
    ∃ c, (running 0x7#32 0 iend).inFlight = some c ∧ c.word = 0x7#32 ∧ c.wait = 0 ∧
      (running 0x7#32 0 iend).rstN.head? ≠ some false := by
  refine ⟨?_, ?_, ?_, ?_, ?_, ?_, ?_, ?_, ?_, _, rfl, rfl, rfl, ?_⟩ <;> decide

theorem witness_CrcByteLosesNothing :
    crcByte 0x1#32 0x2#8 = crcByte 0x1#32 0x2#8 ∧ crcByte 0x1#32 0x2#8 ≠ crcByte 0x3#32 0x2#8 := by decide +kernel

theorem witness_CrcFinalComplementsTheAccumulator : OperandsHeld iend ∧ OperandsHeld (running 0x3#32 0 iend) := by decide

/-- The last range, and the empty range at the end; with a written byte in the first range. -/
theorem witness_CrcFeedAdvancesOverTheRange :
    (let x := operands (withOperands 252#32 4#32 0#32 counting);
      x.offset.toNat + x.length.toNat ≤ counting.params.bufSize ∧
        counting.buf.get (x.offset.toNat + 3) = some 0xFF#8) ∧
    (let x := operands (withOperands 256#32 0#32 0#32 counting);
      x.offset.toNat + x.length.toNat ≤ counting.params.bufSize) := by decide +kernel

theorem witness_ChecksumGivesTheCrcOfTheRange :
    (let x := operands iend;
      x.offset.toNat + x.length.toNat ≤ iend.params.bufSize ∧ iend.buf.get (x.offset.toNat + 3) = some 0x44#8) ∧
    (let x := operands (withOperands 256#32 0#32 0#32 iend);
      x.offset.toNat + x.length.toNat ≤ iend.params.bufSize) := by decide +kernel

/-- An empty record at the end of `BUF`, a payload in place, a source just past the record, and one just before it. -/
theorem witness_WriteRecordWritesTheRecord :
    [(244, 0, 0), (0, 4, 8), (0, 8, 20), (20, 4, 16)].all (fun row =>
      let (o, n, src) := row
      let x := operands (withOperands (BitVec.ofNat 32 o) (BitVec.ofNat 32 n) (BitVec.ofNat 32 src) counting)
      decide (counting.params.legal ∧ x.offset.toNat + 12 + x.length.toNat ≤ counting.params.bufSize ∧
        (0 < x.length.toNat → x.src.toNat ≠ x.offset.toNat + 8 →
          x.src.toNat + x.length.toNat ≤ counting.params.bufSize ∧
            (x.offset.toNat + 12 + x.length.toNat ≤ x.src.toNat ∨ x.src.toNat + x.length.toNat ≤ x.offset.toNat)))) =
      true := by decide +kernel

theorem witness_Put32WritesTheField :
    (withOperands 252#32 0#32 0#32 State.reset).params.legal ∧
      (operands (withOperands 252#32 0#32 0#32 State.reset)).offset.toNat + 4 ≤ State.reset.params.bufSize := by
  decide +kernel

theorem witness_AdvanceMovesOffsetToNext :
    State.reset.params.legal ∧ State.reset.status.err = false ∧
      (∃ t, exec (.writeRecord true) State.reset = .next t ∧ t.status.err = false) ∧
      ∃ t, exec (.writeRecord false) State.reset = .next t ∧ t.status.err = false :=
  ⟨by decide +kernel, rfl, ⟨_, rfl, rfl⟩, ⟨_, rfl, rfl⟩⟩

/-- Each row of R90 at the last operand that passes and the first that does not. -/
theorem witness_BoundsExactlyWhenARangeLeavesBuf :
    State.reset.status.err = false ∧ State.reset.status.errcode = 0#4 ∧
    [Instr.crcFeed, .checksum].map (fun i => (statusAfter i (withOperands 252#32 4#32 0#32 State.reset),
      statusAfter i (withOperands 252#32 5#32 0#32 State.reset))) =
      List.replicate 2 (some 0x02#32, some 0x26#32) ∧
    (statusAfter (.writeRecord false) (withOperands 0#32 4#32 252#32 State.reset),
      statusAfter (.writeRecord false) (withOperands 0#32 4#32 253#32 State.reset),
      statusAfter (.writeRecord false) (withOperands 245#32 0#32 0#32 State.reset)) =
      (some 0x02#32, some 0x26#32, some 0x26#32) ∧
    (statusAfter (.put32 true) (withOperands 252#32 0#32 0#32 State.reset),
      statusAfter (.put32 true) (withOperands 253#32 0#32 0#32 State.reset)) = (some 0x02#32, some 0x26#32) := by
  decide +kernel

/-- A source that meets the record's first byte, and its last. -/
theorem witness_OverlapExactlyWhenSourceMeetsRecord :
    counting.status.err = false ∧ counting.status.errcode = 0#4 ∧
    (statusAfter (.writeRecord false) (withOperands 20#32 4#32 17#32 counting),
      statusAfter (.writeRecord false) (withOperands 20#32 4#32 35#32 counting),
      statusAfter (.writeRecord false) (withOperands 20#32 4#32 36#32 counting)) =
      (some 0x36#32, some 0x36#32, some 0x02#32) := by decide +kernel

theorem witness_FailedCommandWritesOnlyStatus :
    let s := running 0x6#32 0 (withOperands 253#32 0#32 0#32 State.reset)
    s.status.err = false ∧ s.rstN.head? ≠ some false ∧
      ∃ c t, s.inFlight = some c ∧ c.wait = 0 ∧ step s = .next t ∧ t.status.err = true :=
  ⟨rfl, by decide, _, _, rfl, rfl, rfl, rfl⟩

/-- An illegal word with operands that leave `BUF`; a record and a source that both leave it; a source alone; a source that
meets the record. -/
theorem witness_FirstErrorIsReported :
    (∃ why, decode 0x17#32 = .illegal why) ∧ decode 0x5#32 = .command (.writeRecord false) ∧
    [(0x17#32, 0xFFFFFFFF#32, 0xFFFFFFFF#32, 0#32), (0x5#32, 250#32, 10#32, 300#32), (0x5#32, 0#32, 8#32, 250#32),
      (0x5#32, 0#32, 8#32, 4#32)].map (fun row =>
        let s := running row.1 0 (withOperands row.2.1 row.2.2.1 row.2.2.2 State.reset)
        (s.status.err, s.rstN.head?, (ended (step s)).map (fun t => t.status.word))) =
      [(false, none, some 0x16#32), (false, none, some 0x26#32), (false, none, some 0x26#32), (false, none, some 0x36#32)] :=
  ⟨⟨.reservedField, by decide⟩, by decide, by decide +kernel⟩

/-- A step that keeps the error, one that clears it, and a reset. -/
theorem witness_OnlyClearOrResetEndsAnError :
    [scripted [.cmd .nop] failed, scripted [.w32 .status 0x4#32] failed, { failed with rstN := [false] }].map
        (fun s => (decide (Consistent s), s.status.err, (ended (step s)).map (fun t => t.status.err))) =
      [(true, true, some true), (true, true, some false), (true, true, some false)] := by decide +kernel

theorem witness_ReturnFromAnError : (0x4#32).getLsbD 2 = true := by decide

/-- Each command that may write a register writes it from this state. -/
theorem witness_CommandsWriteOnlyTheirRegisters :
    let s := { withOperands 0#32 4#32 0x80#32 counting with crcAcc := 0x12345678#32 }
    [Instr.nop, .crcInit, .crcFeed, .crcFinal, .checksum, .writeRecord true, .put32 true].map (fun i =>
      (ended (exec i s)).map (fun t =>
        (t.offset == s.offset, t.crcAcc == s.crcAcc, t.result == s.result, t.next == s.next, t.buf == s.buf))) =
      [some (true, true, true, true, true), some (true, false, true, true, true), some (true, false, true, true, true),
        some (true, true, false, true, true), some (true, true, false, true, true),
        some (false, true, false, false, false), some (false, true, true, false, false)] := by decide +kernel

theorem witness_NoStepChangesTheParameters : ∃ t, step (State.powerOn ⟨12⟩) = .next t := ⟨_, rfl⟩

/-- The last register and the address after it; the first and last byte of `BUF` and the address after it; a register
address that is misaligned, or of the wrong width. -/
theorem witness_BusErrorsAreExactlyTheUnmappedTransfers :
    [(⟨false, 0x24#32, .word, 0#32⟩ : Transfer), ⟨false, 0x28#32, .word, 0#32⟩, ⟨false, 0x22#32, .word, 0#32⟩,
      ⟨true, 0x24#32, .half, 0#32⟩, ⟨true, 0x80000000#32, .byte, 0#32⟩, ⟨true, 0x800000FF#32, .byte, 0#32⟩,
      ⟨true, 0x80000100#32, .byte, 0#32⟩].map (fun tr =>
        (decide (tr.size = .word ∧ tr.addr.toNat % 4 = 0 ∧ tr.addr.toNat ≤ 0x24),
          decide (tr.size = .byte ∧ 0x80000000 ≤ tr.addr.toNat ∧
            tr.addr.toNat < 0x80000000 + State.reset.params.bufSize))) =
      [(true, false), (false, false), (false, false), (false, false), (false, true), (false, true), (false, false)] := by
  decide +kernel

theorem witness_BufferWindowMovesBytes :
    255 < counting.params.bufSize ∧ counting.params.legal ∧ counting.buf.get 255 = some 0xFF#8 ∧ Size.half ≠ .byte := by
  decide +kernel

theorem witness_UnwrittenCellIsDrawnAtEachRead :
    255 < State.reset.params.bufSize ∧ State.reset.params.legal ∧ State.reset.buf.get 255 = none := by decide +kernel

theorem witness_RegistersReadBackWhatIsStored :
    Reg.crcAcc ∈ [Reg.offset, .length, .src, .tag, .data, .crcAcc] ∧ Reg.tag ≠ Reg.crcAcc ∧
      (Reg.next = .result ∨ Reg.next = .next) := by decide

theorem witness_ReadsHaveNoSideEffect : (⟨false, 0x80000005#32, .byte, 0#32⟩ : Transfer).we = false := rfl

theorem witness_CommandIsAcceptedOrDiscarded :
    failed.status.err = true ∧ State.reset.status.err = false ∧
      held ⟨true, 0x00#32, .word, 0x1#32⟩ (running 0x4#32 0 iend) = true := by decide

theorem witness_StepRunsTheDecodedCommand :
    let s := running 0x105#32 0 State.reset
    s.rstN.head? ≠ some false ∧ decode 0x105#32 = .command (.writeRecord true) ∧
      ∃ c, s.inFlight = some c ∧ c.wait = 0 ∧ c.word = 0x105#32 :=
  ⟨by decide, by decide, _, rfl, rfl, rfl⟩

/-- A read of `STATUS`, and a transfer that is held. -/
theorem witness_BusyHoldsAllButStatusReads :
    [ScriptLine.r32 .status none, .w32 .offset 5#32].map (fun line =>
      let s := running 0x4#32 1 (scripted [line] iend)
      (decide (Consistent s), s.inFlight.map (fun c => c.wait), s.rstN.head?, currentLine s == some line,
        (ended (step s)).map (fun t => t.host.line))) =
      [(true, some 1, none, true, some 1), (true, some 1, none, true, some 0)] := by decide +kernel

theorem witness_EveryStepAnswersANextState : LabelsResolve (scripted (pollLoop 3) iend) := by decide

theorem witness_AcceptedCommandCompletes :
    let s := running 0x4#32 2 (scripted (pollLoop 3) iend)
    Consistent s ∧ LabelsResolve s ∧ NoResetFor 3 s ∧ ∃ c, s.inFlight = some c ∧ c.wait + 1 = 3 :=
  ⟨by decide +kernel, by decide, by decide, _, rfl, rfl⟩

/-- A host that requests nothing, and one that waits with a transfer. -/
theorem witness_LatencyShowsOnlyInStatusReads :
    (let s := running 0x4#32 0 iend;
      Consistent s ∧ s.rstN = [] ∧ s.inFlight.isSome = true ∧ currentLine s = none) ∧
    (let s := running 0x4#32 0 (scripted [.r32 .result none] iend);
      Consistent s ∧ s.rstN = [] ∧ s.inFlight.isSome = true ∧
        ∃ line tr, currentLine s = some line ∧ line.act = .transfer tr ∧ tr.isStatusRead = false) :=
  ⟨by decide +kernel, by decide +kernel, rfl, rfl, _, _, rfl, rfl, by decide⟩

theorem witness_EveryStepKeepsTheInvariant :
    Consistent (running 0x4#32 0 iend) ∧ ∃ t, step (running 0x4#32 0 iend) = .next t := ⟨by decide +kernel, _, rfl⟩

theorem witness_PowerOnMeetsTheInvariant : Config.Params.legal ⟨12⟩ ∧ Config.Params.legal ⟨2147483648⟩ := by
  constructor <;> norm_num [Config.Params.legal, Config.minBufSize, Config.maxBufSize]

theorem witness_ResetSetsTheRegisters : { iend with rstN := [false, true] }.rstN = false :: [true] := rfl

theorem witness_IdleResetKeepsBuf :
    let s : State := { iend with rstN := [false] }
    s.inFlight = none ∧ s.rstN.head? = some false ∧ ∃ t, step s = .next t := ⟨rfl, rfl, _, rfl⟩

/-- A record that fits, a field that fits, and a command that writes nothing; at the first and last byte. -/
theorem witness_ResetUnwritesWhatTheCommandCouldWrite :
    [(0x105#32, 0x40, 0x51), (0x6#32, 0x40, 0x43), (0x4#32, 0x40, 0x40)].map (fun row =>
      let s := { running row.1 0 (withOperands 0x40#32 6#32 0x80#32 counting) with rstN := [false] }
      (s.inFlight.isSome, (ended (step s)).map (fun t => (t.buf.get row.2.1, t.buf.get row.2.2)))) =
      [(true, some (none, none)), (true, some (none, none)), (true, some (some 0x40#8, some 0x40#8))] := by decide +kernel

theorem witness_FeedingInPiecesIsFeedingAtOnce :
    iend.inFlight = none ∧ iend.offset.toNat + 1 + 3 ≤ iend.params.bufSize ∧ RangeWritten iend.buf iend.offset.toNat (1 + 3) ∧
      ∃ t u v, exec .crcFeed { iend with length := BitVec.ofNat 32 1 } = .next t ∧
        exec .crcFeed { t with offset := BitVec.ofNat 32 (iend.offset.toNat + 1), length := BitVec.ofNat 32 3 } = .next u ∧
        exec .crcFeed { iend with length := BitVec.ofNat 32 (1 + 3) } = .next v :=
  ⟨rfl, by decide, by decide, _, _, _, rfl, rfl, rfl⟩

theorem witness_ChecksumIsInitFeedFinal :
    iend.inFlight = none ∧ iend.status.err = false ∧ iend.offset.toNat + iend.length.toNat ≤ iend.params.bufSize ∧
      RangeWritten iend.buf iend.offset.toNat iend.length.toNat ∧
      ∃ t1 t2 t3 u, exec .crcInit iend = .next t1 ∧ exec .crcFeed t1 = .next t2 ∧ exec .crcFinal t2 = .next t3 ∧
        exec .checksum iend = .next u :=
  ⟨rfl, rfl, by decide, by decide, _, _, _, _, rfl, rfl, rfl, rfl⟩

/-- Two states whose buffers, `CRC_ACC` and `BUF_SIZE` differ, but not in the range. -/
theorem witness_ChecksumDependsOnItsRangeAlone :
    let s := withOperands 5#32 4#32 0#32 (holding 5 [0x49#8, 0x45#8, 0x4E#8, 0x44#8])
    let s' : State := { withOperands 5#32 4#32 0#32 (holding 4 [0xFF#8, 0x49#8, 0x45#8, 0x4E#8, 0x44#8]) with
      params := ⟨12⟩, crcAcc := 0#32 }
    (operands s).offset = (operands s').offset ∧ (operands s).length = (operands s').length ∧
    (operands s).offset.toNat + (operands s).length.toNat ≤ s.params.bufSize ∧
    (operands s').offset.toNat + (operands s').length.toNat ≤ s'.params.bufSize ∧
    RangeWritten s.buf (operands s).offset.toNat (operands s).length.toNat ∧
    (∀ a, a < 9 → (operands s).offset.toNat ≤ a → s.buf.get a = s'.buf.get a) ∧
    ∃ t t', exec .checksum s = .next t ∧ exec .checksum s' = .next t' :=
  ⟨rfl, rfl, by decide, by decide, by decide, by decide, _, _, rfl, rfl⟩

theorem witness_PreparedCommandsDrawNothing :
    Prepared .checksum iend ∧ ∃ t, exec .checksum iend = .next t := ⟨show RangeWritten _ _ _ by decide, _, rfl⟩

theorem witness_WrittenRecordVerifies :
    let s := withOperands 0#32 1#32 20#32 (holding 20 [0x5A#8])
    Consistent s ∧ s.inFlight = none ∧ s.status.err = false ∧ RangeWritten s.buf (payloadStart (operands s)) s.length.toNat ∧
      (∃ t, exec (.writeRecord false) s = .next t ∧ t.status.err = false) ∧
      ∃ t, exec (.writeRecord true) s = .next t ∧ t.status.err = false :=
  ⟨by decide +kernel, rfl, rfl, by decide, ⟨_, rfl, rfl⟩, ⟨_, rfl, rfl⟩⟩

theorem witness_ChainedRecordsLieEndToEnd :
    State.reset.params.legal ∧ State.reset.inFlight = none ∧ State.reset.status.err = false ∧
      ∃ t, writeChain [⟨0x49484452#32, 0x80#32, 1#32⟩, ⟨0x49454E44#32, 0#32, 0#32⟩] State.reset = .next t ∧
        t.status.err = false :=
  ⟨by decide +kernel, rfl, rfl, _, rfl, rfl⟩

theorem witness_EqualBytesAreEqualBuffers :
    iend.buf.wf ∧ (Memory.writeRange [] 0 [0x49#8, 0x45#8, 0x4E#8, 0x44#8]).wf ∧
      ∀ a, iend.buf.get a = (Memory.writeRange [] 0 [0x49#8, 0x45#8, 0x4E#8, 0x44#8]).get a :=
  ⟨by decide, by decide, fun _ => rfl⟩

/-- Both ways of a `BNZ` and a label line, each while CRM is idle and while a command waits, and a `BNZ` to no label. -/
theorem witness_BranchFollowsTheLastRead :
    ([(2, 0x1#32), (2, 0x2#32), (0, 0x1#32)].flatMap (fun row =>
        let idle : State := { iend with host := ⟨pollLoop 0, row.1, row.2⟩ }
        [idle, running 0x4#32 1 idle])).map (fun s =>
          (s.rstN.head?, s.inFlight.map (fun c => c.wait), currentLine s == some (.label 0),
            currentLine s == some (.bnz 0x1#32 0), (s.host.lastR32 &&& 0x1#32) == 0#32,
            s.host.script.contains (.label 0))) =
      [(none, none, false, true, false, true), (none, some 1, false, true, false, true),
        (none, none, false, true, true, true), (none, some 1, false, true, true, true),
        (none, none, true, false, false, true), (none, some 1, true, false, false, true)] ∧
    ∃ mask l, currentLine { iend with host := ⟨[.bnz 0x1#32 7], 0, 0x1#32⟩ } = some (.bnz mask l) ∧
      0x1#32 &&& mask ≠ 0#32 ∧ ScriptLine.label l ∉ [ScriptLine.bnz 0x1#32 7] :=
  ⟨by decide +kernel, _, _, rfl, by decide, by decide⟩

/-- One state for each kind of line that is a transfer, the byte lines at the last `BUF` offset a script can name. -/
theorem witness_ScriptLinesDriveThePort :
    [ScriptLine.w32 .offset 5#32, .r32 .status none, .w8 0x7FFFFFFF#31 0xA5#8, .r8 0x7FFFFFFF#31 none, .cmd (.put32 true),
      .xfer ⟨false, 0x28#32, .half, 0#32⟩, .xfer ⟨false, 0x24#32, .word, 0#32⟩].all (fun line =>
        let s := scripted [line] iend
        s.inFlight.isNone && !s.status.busy && s.rstN.head?.isNone && currentLine s == some line &&
          (match line.act with
            | .transfer tr =>
              match line with
              | .w32 r v => tr == ⟨true, r.addr, .word, v⟩
              | .r32 r _ => tr == ⟨false, r.addr, .word, 0#32⟩
              | .w8 i b => tr.we && tr.addr.toNat == 0x80000000 + i.toNat && tr.size == .byte && tr.wdata == 0#24 ++ b
              | .r8 i _ => !tr.we && tr.addr.toNat == 0x80000000 + i.toNat && tr.size == .byte && tr.wdata == 0#32
              | .cmd i => tr == ⟨true, 0x00#32, .word, encode i⟩
              | .xfer t => tr == t
              | .label _ => false
              | .bnz _ _ => false
            | .pass => false
            | .branch _ _ => false)) = true := by decide +kernel

theorem witness_FinishedRunStays : Consistent iend ∧ Finished iend ∧ iend.rstN = [] := ⟨by decide +kernel, by decide, rfl⟩

/-- A `W8S` that ends at the last offset, and one that goes a byte further. -/
theorem witness_PseudoInstructionsExpand :
    (0x7FFFFFFE#31).toNat + [0x49#8, 0x45#8].length ≤ 2 ^ 31 ∧ [0x49#8, 0x45#8][1]? = some 0x45#8 ∧
      2 ^ 31 < (0x7FFFFFFF#31).toNat + [0x49#8, 0x45#8].length := by decide +kernel

/-- A label the author wrote, a branch to it, and a `WAIT` and a `W8S` between them. -/
theorem witness_ExpandedScriptsStayWellFormed :
    let src : List SourceLine :=
      [.line (.label 0), .pseudo .wait, .pseudo (.w8s 0x7FFFFFFF#31 [0xA1#8]), .line (.bnz 0x4#32 0)]
    scriptWellFormed (plainLines src) = true ∧
      expandScript src = some ([.label 0] ++ pollLoop 1 ++ [.w8 0x7FFFFFFF#31 0xA1#8, .bnz 0x4#32 0]) ∧
      (expandScript (src ++ [.pseudo (.w8s 0x7FFFFFFF#31 [0xA1#8, 0xA2#8])])).isSome = false := by decide +kernel

theorem witness_DisassemblyFollowsTheTable : (Instr.put32 true).spelling = (Instr.put32 true).spelling := rfl

end Sys2Proof.Machine.Tests
end

section
/-! PROOFS. Host accesses to `STATUS` (10_state.md R28). -/

namespace Sys2Proof.Machine

/-- R28 as one record: the fields a write of `v` leaves in `STATUS`. -/
theorem Status.hostWrite_eq (st : Status) (v : Word) :
    st.hostWrite v =
      { busy := st.busy
        done := if v.getLsbD 1 then false else st.done
        err := if v.getLsbD 2 then false else st.err
        errcode := if v.getLsbD 2 then 0#4 else st.errcode } := by
  rw [← st.hostWrite_done, ← st.hostWrite_err, ← st.hostWrite_errcode, ← st.hostWrite_busy v]

/-- A write of 0 sets neither clearing bit. -/
@[simp] theorem Status.hostWrite_zero (st : Status) : st.hostWrite 0#32 = st := by
  simp [Status.hostWrite_eq]

/-- A word write at offset 0x04 is `writeStatus`, completed without a bus error (R28, R37). -/
theorem completeTransfer_statusWrite (s : State) (v : Word) :
    completeTransfer ⟨true, 0x04#32, .word, v⟩ s = { writeStatus v s with port := some ⟨none, false⟩ } :=
  completeTransfer_regWrite (target_reg s.params true .status v) rfl

/-- A word read at offset 0x04 answers `STATUS` and touches the port alone (R27, R28). -/
theorem completeTransfer_statusRead (s : State) (v : Word) :
    completeTransfer ⟨false, 0x04#32, .word, v⟩ s = { s with port := some ⟨some s.status.word, false⟩ } :=
  completeTransfer_regRead (target_reg s.params false .status v) rfl

/-- Settles O31: a `STATUS` write is `Status.hostWrite`, which keeps `STATUS` when the word is 0, and a read changes the
port alone. -/
theorem statusWriteIsWriteOneToClear : Obligations.StatusWriteIsWriteOneToClear := by
  intro s v
  refine ⟨?fields, ?zero, some s.status.word, completeTransfer_statusRead s v⟩
  case fields => rw [completeTransfer_statusWrite, writeStatus, Status.hostWrite_eq]
  case zero =>
    rintro rfl
    rw [completeTransfer_statusWrite, writeStatus, Status.hostWrite_zero]

end Sys2Proof.Machine
end

section
/-! PROOFS. Host transfers: which get a bus error, and the bytes of the buffer window (20_memory.md R37 to R40). -/

namespace Sys2Proof.Machine

variable {s : State}

/-- A transfer that reaches a register or a cell shows no bus error, and returns data exactly when it is a read (R34). -/
theorem completeTransfer_performed {tr : Transfer} (h : target s.params tr ≠ .busError) :
    ∃ d, (completeTransfer tr s).port = some ⟨d, false⟩ ∧ (d.isSome = true ↔ tr.we = false) := by
  cases ht : target s.params tr with
  | reg r =>
    cases hw : tr.we with
    | true => exact ⟨none, by rw [completeTransfer_regWrite ht hw], by simp⟩
    | false => exact ⟨some (readReg r s), by rw [completeTransfer_regRead ht hw], by simp⟩
  | cell i =>
    cases hw : tr.we with
    | true => exact ⟨none, by rw [completeTransfer_cellWrite ht hw], by simp⟩
    | false =>
      exact ⟨some ((readCell s.buf i s.draws).1.setWidth 32), by rw [completeTransfer_cellRead ht hw], by simp⟩
  | busError => exact absurd ht h

/-- Settles O25: a transfer that is neither has the target `busError`, which changes the port alone; one that is either
reaches a register or a cell. -/
theorem busErrorsAreExactlyTheUnmappedTransfers : Obligations.BusErrorsAreExactlyTheUnmappedTransfers := by
  intro tr s toRegister toCell
  refine ⟨fun hreg hcell => completeTransfer_busError (target_of_neither hreg hcell), ?performed⟩
  case performed =>
    rintro (⟨hsize, halign, hlast⟩ | ⟨hsize, hlow, hhigh⟩)
    · obtain ⟨r, ht⟩ := target_of_register (p := s.params) hsize halign hlast
      exact completeTransfer_performed (by simp [ht])
    · obtain ⟨i, haddr⟩ := Nat.exists_eq_add_of_le hlow
      have ht : target s.params tr = .cell i := target_of_cell hsize haddr (by omega)
      exact completeTransfer_performed (by simp [ht])

/-- At the address of a cell every size but a byte gets a bus error: no register lies there (R36, R38). -/
theorem target_of_cellAddr_not_byte {p : Config.Params} {tr : Transfer} {i : Nat} (hs : tr.size ≠ .byte)
    (ha : tr.addr.toNat = Config.bufBase + i) : target p tr = .busError := by
  refine target_of_neither (fun ⟨_, _, hlast⟩ => ?_) (fun hcell => hs hcell.1)
  rw [ha, Config.bufBase, Config.lastRegAddr] at hlast
  omega

/-- The word a byte read returns has the byte on bits 7:0 and 0 above (R38): the model's widening in the spec's form. -/
theorem byte_setWidth_eq_zero_append (b : Byte) : b.setWidth 32 = 0#24 ++ b :=
  BitVec.setWidth_eq_append (by decide)

/-- Settles O26: a byte transfer reaches cell `i`, so it is a `Memory.set` or a `readCell` there; no other size reaches a
cell. -/
theorem bufferWindowMovesBytes : Obligations.BufferWindowMovesBytes := by
  intro s i v hi hlegal a
  have ha : a.toNat = Config.bufBase + i := cellAddr_toNat hlegal hi
  have hbyte (we : Bool) : target s.params ⟨we, a, .byte, v⟩ = .cell i := target_of_cell rfl ha hi
  refine ⟨⟨s.buf.set i (v.setWidth 8), completeTransfer_cellWrite (hbyte true) rfl, fun j => ?stored⟩,
    ⟨(readCell s.buf i s.draws).1, (readCell s.buf i s.draws).2, ?readShows, fun c hc => ?readWritten⟩,
    fun we size hsize => completeTransfer_busError (target_of_cellAddr_not_byte hsize ha)⟩
  case stored => rw [Memory.get_set, BitVec.setWidth_eq_extractLsb' (by decide)]
  case readShows => rw [completeTransfer_cellRead (hbyte false) rfl, byte_setWidth_eq_zero_append]
  case readWritten => simp [readCell_written hc]

end Sys2Proof.Machine
end

section
/-! PROOFS. The decoder as the inverse of the encoder, the table of the legal words, and the engine's step on an illegal
word (30_encoding.md R56 to R62). -/

namespace Sys2Proof

/-! ### The fields of a word (R56) -/

theorem ofBool_getLsbD_eq_extractLsb' (w : Word) (k : Nat) : BitVec.ofBool (w.getLsbD k) = w.extractLsb' k 1 := by
  ext j
  obtain rfl : j = 0 := by omega
  simp

/-- The four fields cover the word: laid out again they give it back. -/
theorem CommandWord.toWord_ofWord (w : Word) : (CommandWord.ofWord w).toWord = w := by
  unfold toWord ofWord
  rw [ofBool_getLsbD_eq_extractLsb', BitVec.extractLsb'_append_extractLsb'_eq_extractLsb' (by decide),
    BitVec.extractLsb'_append_extractLsb'_eq_extractLsb' (by decide), BitVec.extractLsb'_append_extractLsb']

/-- The four fields do not overlap: cut out again they are what was laid out. -/
theorem CommandWord.ofWord_toWord (f : CommandWord) : CommandWord.ofWord f.toWord = f := by
  obtain ⟨op, rsv0, adv, rsv1⟩ := f
  simp only [ofWord, toWord, mk.injEq]
  refine ⟨BitVec.extractLsb'_append_eq_right, ?rsv0, ?adv, ?rsv1⟩
  case rsv0 => rw [BitVec.extractLsb'_append_eq_of_le (by decide), BitVec.extractLsb'_append_eq_right]
  case adv =>
    rw [BitVec.getLsbD_append, BitVec.getLsbD_append, BitVec.getLsbD_append]
    simp
  case rsv1 =>
    rw [BitVec.extractLsb'_append_eq_of_le (by decide), BitVec.extractLsb'_append_eq_of_le (by decide),
      BitVec.extractLsb'_append_eq_left]

theorem CommandWord.ofWord_eq_iff {w : Word} {f : CommandWord} : CommandWord.ofWord w = f ↔ w = f.toWord :=
  ⟨fun h => by rw [← h, toWord_ofWord], fun h => by rw [h, ofWord_toWord]⟩

/-! ### Which command a word decodes to (R57 to R60) -/

theorem decodeOp_eq_command_iff {op : BitVec 4} {adv : Bool} {i : Instr} :
    decodeOp op adv = .command i ↔ op = i.op ∧ adv = i.adv := by
  constructor
  · intro h
    unfold decodeOp at h
    split at h <;> cases h <;> exact ⟨BitVec.eq_of_toNat_eq ‹_›, rfl⟩
  · rintro ⟨rfl, rfl⟩
    cases i <;> rfl

theorem decodeFields_eq_command_iff {f : CommandWord} {i : Instr} : decodeFields f = .command i ↔ f = i.fields := by
  obtain ⟨op, rsv0, adv, rsv1⟩ := f
  by_cases hrsv : rsv0 = 0#4 ∧ rsv1 = 0#23
  · simp [decodeFields, hrsv, decodeOp_eq_command_iff, Instr.fields]
  · simp only [decodeFields, if_neg hrsv, Instr.fields, CommandWord.mk.injEq, reduceCtorEq, false_iff]
    exact fun ⟨_, hrsv0, _, hrsv1⟩ => hrsv ⟨hrsv0, hrsv1⟩

/-- A word decodes to a command exactly when it is that command's word. -/
theorem decode_eq_command_iff {w : Word} {i : Instr} : decode w = .command i ↔ w = encode i := by
  rw [decode, decodeFields_eq_command_iff, CommandWord.ofWord_eq_iff, encode]

/-! ### The table of the nine legal words (R60) -/

theorem mem_legalWords_iff {w : Word} {i : Instr} : (w, i) ∈ legalWords ↔ w = encode i := by
  constructor
  · have hrows : ∀ row ∈ legalWords, row.1 = encode row.2 := by decide
    exact hrows (w, i)
  · rintro rfl
    cases i with
    | writeRecord adv => cases adv <;> decide
    | put32 adv => cases adv <;> decide
    | _ => decide

/-- Settles O1: a word decodes to the commands `legalWords` gives it, and the table of R60 is `legalWords` with each command
spelled. -/
theorem legalWordsAreExactlyTheNine : Obligations.LegalWordsAreExactlyTheNine := by
  intro w text
  change _ ↔ (w, text) ∈ legalWords.map (fun row => (row.1, row.2.spelling))
  simp [decode_eq_command_iff, ← mem_legalWords_iff]

/-! ### Which words are legal (R57 to R59, R62) -/

theorem CommandWord.wellFormed_iff (f : CommandWord) :
    f.wellFormed = true ↔ ¬ (7 ≤ f.op.toNat ∨ f.rsv0 ≠ 0#4 ∨ f.rsv1 ≠ 0#23 ∨ (f.adv = true ∧ f.op.toNat ≤ 4)) := by
  have h5 : f.op = 5#4 ↔ f.op.toNat = 5 := BitVec.toNat_inj.symm
  have h6 : f.op = 6#4 ↔ f.op.toNat = 6 := BitVec.toNat_inj.symm
  simp only [wellFormed, opDefined, rsv0Clear, rsv1Clear, advAllowed, Bool.and_eq_true, Bool.or_eq_true,
    Bool.not_eq_true', decide_eq_true_eq, beq_iff_eq, h5, h6]
  grind

theorem Instr.fields_wellFormed (i : Instr) : i.fields.wellFormed = true := by
  cases i with
  | writeRecord adv => exact Laws.EncodesLegal.writeRecord adv
  | put32 adv => exact Laws.EncodesLegal.put32 adv
  | _ => rfl

/-- The operations of R57, with `ADV` as R58 allows it, are all that the two checks on `OP` and `ADV` leave. -/
theorem exists_decodeOp_command {op : BitVec 4} {adv : Bool} (hop : op.toNat ≤ 6) (hadv : adv = true → 5 ≤ op.toNat) :
    ∃ i, decodeOp op adv = .command i := by
  unfold decodeOp
  split
  case h_8 | h_9 | h_10 | h_11 | h_12 => exact absurd (hadv rfl) (by omega)
  case h_13 => grind
  all_goals exact ⟨_, rfl⟩

/-- The legal words are those with a command, so the decoder rejects no more and no less than R62 lists. -/
theorem exists_decode_command_iff (w : Word) :
    (∃ i, decode w = .command i) ↔ (CommandWord.ofWord w).wellFormed = true := by
  constructor
  · rintro ⟨i, hi⟩
    rw [decodeFields_eq_command_iff.1 hi]
    exact i.fields_wellFormed
  · intro h
    rw [CommandWord.wellFormed_iff] at h
    push Not at h
    obtain ⟨hop, hrsv0, hrsv1, hadv⟩ := h
    rw [decode, decodeFields, if_pos ⟨hrsv0, hrsv1⟩]
    exact exists_decodeOp_command (by omega) hadv

theorem exists_decode_illegal_of_not_wellFormed {w : Word} (h : ¬ (CommandWord.ofWord w).wellFormed = true) :
    ∃ why, decode w = .illegal why := by
  cases hd : decode w with
  | command i => exact absurd ((exists_decode_command_iff w).1 ⟨i, hd⟩) h
  | illegal why => exact ⟨why, rfl⟩

end Sys2Proof

namespace Sys2Proof.Machine

variable {s : State} {c : InFlight} {why : Reject}

/-! ### The engine on an illegal word (R62) -/

theorem engineMove_illegal (hd : decode c.word = .illegal why) :
    engineMove c s = .next (raiseCmdError .illegalCmd s) := by
  simp [engineMove, hd, execIllegal]

theorem step_illegal (hr : s.rstN.head? ≠ some false) (hf : s.inFlight = some c) (hw : c.wait = 0)
    (hd : decode c.word = .illegal why) : step s = .next (raiseCmdError .illegalCmd (beginStep s)) := by
  rw [step_engine (resetNow_eq_false hr) hf hw, engineMove_illegal hd]

/-- Settles O4: the four conditions of R62 are the negation of `CommandWord.wellFormed`, which decides whether a word has a
command; without one the engine raises `ILLEGAL_CMD`. -/
theorem illegalWordsEndWithCodeOne : Obligations.IllegalWordsEndWithCodeOne := by
  intro w illegal
  have hlegal : (CommandWord.ofWord w).wellFormed = true ↔ ¬ illegal := (CommandWord.ofWord w).wellFormed_iff
  refine ⟨fun h => (exists_decode_command_iff w).2 (hlegal.2 h), ?ends⟩
  case ends =>
    rintro hill s c hf rfl hw hr
    obtain ⟨why, hd⟩ := exists_decode_illegal_of_not_wellFormed fun h => hlegal.1 h hill
    exact step_illegal hr hf hw hd

end Sys2Proof.Machine
end

section
/-! PROOFS. The table-driven byte step (40_crc.md R69). A bit step is linear over exclusive or, and it only shifts a word
whose low bit is 0; so the low byte of a word and its upper bits can be stepped apart. -/

namespace Sys2Proof.Machine

/-! ### The bit step (R67) -/

/-- What a bit step exclusive-ors into the shifted word, as a function of the bit shifted out. -/
def crcFeedback (out : Bool) : Word := if out then Config.crcPoly else 0#32

theorem crcFeedback_xor (a b : Bool) : crcFeedback (a ^^ b) = crcFeedback a ^^^ crcFeedback b := by
  cases a <;> cases b <;> rfl

theorem crcShift_eq_xor_feedback (c : Word) : crcShift c = c >>> 1 ^^^ crcFeedback (c.getLsbD 0) := by
  unfold crcShift
  split
  case isTrue h => rw [h]; rfl
  case isFalse h => rw [Bool.eq_false_of_not_eq_true h]; exact BitVec.xor_zero.symm

theorem crcShift_of_lsb_zero {c : Word} (h : c.getLsbD 0 = false) : crcShift c = c >>> 1 := by
  rw [crcShift_eq_xor_feedback, h]
  exact BitVec.xor_zero

theorem crcShift_xor (a b : Word) : crcShift (a ^^^ b) = crcShift a ^^^ crcShift b := by
  simp only [crcShift_eq_xor_feedback, BitVec.getLsbD_xor, crcFeedback_xor, BitVec.ushiftRight_xor_distrib]
  ac_rfl

@[simp] theorem crcShifts_zero (c : Word) : crcShifts 0 c = c := rfl

theorem crcShifts_succ (k : Nat) (c : Word) : crcShifts (k + 1) c = crcShifts k (crcShift c) := rfl

theorem crcShifts_xor (k : Nat) (a b : Word) : crcShifts k (a ^^^ b) = crcShifts k a ^^^ crcShifts k b := by
  induction k generalizing a b with
  | zero => rfl
  | succ k ih => simp only [crcShifts_succ, crcShift_xor, ih]

/-- A multiple of `2 ^ k` feeds nothing back in `k` steps. -/
theorem crcShifts_of_low_zero {k : Nat} {c : Word} (h : ∀ i < k, c.getLsbD i = false) : crcShifts k c = c >>> k := by
  induction k generalizing c with
  | zero => simp
  | succ k ih =>
    have hlow : ∀ i < k, (c >>> 1).getLsbD i = false := fun i hi => by
      rw [BitVec.getLsbD_ushiftRight]
      exact h (1 + i) (by omega)
    rw [crcShifts_succ, crcShift_of_lsb_zero (h 0 k.succ_pos), ih hlow, ← BitVec.shiftRight_add, Nat.add_comm]

/-! ### The byte step (R69) -/

theorem word_eq_low_xor_high (w : Word) : w = (w.setWidth 8).setWidth 32 ^^^ (w >>> 8) <<< 8 := by
  ext i hi
  by_cases h : i < 8
  · simp [h, BitVec.getLsbD_eq_getElem hi]
  · simp [h, Nat.add_sub_cancel' (Nat.le_of_not_lt h), BitVec.getLsbD_eq_getElem hi]

theorem crcShifts_eight (w : Word) : crcShifts 8 w = crcShifts 8 ((w.setWidth 8).setWidth 32) ^^^ w >>> 8 := by
  have hhigh : crcShifts 8 ((w >>> 8) <<< 8) = w >>> 8 := by
    rw [crcShifts_of_low_zero fun i hi => by simp [hi]]
    bv_omega
  calc crcShifts 8 w
      = crcShifts 8 ((w.setWidth 8).setWidth 32 ^^^ (w >>> 8) <<< 8) := by rw [← word_eq_low_xor_high]
    _ = crcShifts 8 ((w.setWidth 8).setWidth 32) ^^^ w >>> 8 := by rw [crcShifts_xor, hhigh]

theorem crcTable_eq_shifts (n : Byte) : crcTable n = crcShifts 8 (n.setWidth 32) := by
  rw [crcTable, crcByte, BitVec.zero_xor]

theorem xor_byte_ushiftRight_eight (c : Word) (b : Byte) : (c ^^^ b.setWidth 32) >>> 8 = c >>> 8 := by
  ext i hi
  simp

/-- The index into the table is the low byte, and the byte fed in does not reach the upper bits. -/
theorem crcByteByTable_eq_crcByte (c : Word) (b : Byte) : crcByteByTable c b = crcByte c b := by
  rw [crcByteByTable, crcTable_eq_shifts, crcByte, crcShifts_eight (c ^^^ b.setWidth 32),
    xor_byte_ushiftRight_eight]

/-- Settles O5: the identity is linearity, and the entries R69 gives for checking are evaluated. -/
theorem tableDrivenCrcIsTheBitwiseCrc : Obligations.TableDrivenCrcIsTheBitwiseCrc :=
  ⟨fun c b => (crcByteByTable_eq_crcByte c b).symm, crcByteByTable_eq_crcByte, by decide⟩

end Sys2Proof.Machine
end

section
/-! PROOFS. `WRITE_RECORD` (41_marshal.md R75 to R83): when it ends without error, the state it leaves, and what
reading or writing the record again gives. -/

namespace Sys2Proof.Machine

/-! ### `BUF` as the bytes its cells hold -/

/-- In canonical form a cell is listed exactly when its offset reads as its byte. -/
theorem Memory.mem_iff_get {m : Memory} (hm : m.wf) (c : Host.Cell) : c ∈ m ↔ m.get c.1 = some c.2 := by
  induction m with
  | nil => simp
  | cons e rest ih =>
    obtain ⟨he, hrest⟩ := List.pairwise_cons.1 hm
    rw [List.mem_cons, ih hrest, Memory.get_cons]
    by_cases hk : e.1 = c.1
    · have hc : Memory.get rest c.1 ≠ some c.2 := fun h =>
        absurd (he c ((ih hrest).2 h)) (by omega)
      simp [hk, hc, Prod.ext_iff, eq_comm]
    · have hne : c ≠ e := fun h => hk (h ▸ rfl)
      simp [hk, hne]

/-- Two buffers in canonical form whose cells read alike are the same. -/
theorem Memory.eq_of_get_eq {m m' : Memory} (hm : m.wf) (hm' : m'.wf) (h : ∀ a, m.get a = m'.get a) : m = m' := by
  have : Std.Irrefl fun x y : Host.Cell => x.1 < y.1 := ⟨fun _ => lt_irrefl _⟩
  have : Std.Antisymm fun x y : Host.Cell => x.1 < y.1 := ⟨fun _ _ hxy hyx => absurd hxy hyx.asymm⟩
  exact List.Pairwise.eq_of_mem_iff hm hm' fun c => by rw [mem_iff_get hm, mem_iff_get hm', h]

/-- A range whose cells hold the bytes of a list reads as that list and draws nothing. -/
theorem readRange_eq_of_get {m : Memory} {a n : Nat} {bytes : List Byte} (hn : bytes.length = n)
    (h : ∀ k, k < n → m.get (a + k) = bytes[k]?) (d : Nat) : readRange m a n d = (bytes, d) := by
  subst hn
  induction bytes generalizing a with
  | nil => rfl
  | cons b rest ih =>
    have hb : m.get a = some b := by simpa using h 0 (by simp)
    have hrest : readRange m (a + 1) rest.length d = (rest, d) := ih fun k hk => by
      rw [Nat.add_assoc, Nat.add_comm 1 k]
      simpa using h (k + 1) (by simpa using hk)
    rw [List.length_cons, readRange_succ, readCell_written hb, hrest]

/-- Byte `k` of a big-endian field, most significant first (R42). -/
theorem be32_getElem? (v : Word) {k : Nat} (hk : k < 4) :
    (be32 v)[k]? = some ((v >>> (8 * (3 - k))).setWidth 8) := by
  have hbyte (i : Nat) : v.extractLsb' i 8 = (v >>> i).setWidth 8 := by
    ext j hj
    simp
  interval_cases k <;> simp [be32, hbyte]

/-! ### The fields of a written record (R75) -/

section
variable (m : Memory) {x : Operands} {payload : List Byte} (hp : payload.length = x.n) (sum : Word)
include hp

theorem get_writeRecordBytes_length {k : Nat} (hk : k < 4) :
    (writeRecordBytes m x payload sum).get (x.o + k) = (be32 x.length)[k]? := by
  rw [get_writeRecordBytes m x hp, if_neg (by omega), if_neg (by omega), if_neg (by omega), if_pos (by omega),
    Nat.add_sub_cancel_left]

theorem get_writeRecordBytes_tag {k : Nat} (hk : k < 4) :
    (writeRecordBytes m x payload sum).get (x.o + 4 + k) = (be32 x.tag)[k]? := by
  rw [get_writeRecordBytes m x hp, if_neg (by omega), if_neg (by omega), if_pos (by omega), Nat.add_sub_cancel_left]

theorem get_writeRecordBytes_payload {k : Nat} (hk : k < x.n) :
    (writeRecordBytes m x payload sum).get (x.o + 8 + k) = payload[k]? := by
  rw [get_writeRecordBytes m x hp, if_neg (by omega), if_pos (by omega), Nat.add_sub_cancel_left]

theorem get_writeRecordBytes_sum {k : Nat} (hk : k < 4) :
    (writeRecordBytes m x payload sum).get (x.o + 8 + x.n + k) = (be32 sum)[k]? := by
  rw [get_writeRecordBytes m x hp, if_pos (by omega), Nat.add_sub_cancel_left]

theorem get_writeRecordBytes_outside {a : Nat} (ha : a < x.o ∨ recordEnd x ≤ a) :
    (writeRecordBytes m x payload sum).get a = m.get a := by
  rw [recordEnd, Config.recordFraming] at ha
  rw [get_writeRecordBytes m x hp, if_neg (by omega), if_neg (by omega), if_neg (by omega), if_neg (by omega)]

/-- What the checksum covers, as one range: the tag and after it the payload (R76). -/
theorem get_writeRecordBytes_summed {k : Nat} (hk : k < x.n + 4) :
    (writeRecordBytes m x payload sum).get (x.o + 4 + k) = (be32 x.tag ++ payload)[k]? := by
  by_cases htag : k < 4
  · rw [get_writeRecordBytes_tag m hp sum htag, List.getElem?_append_left htag]
  · obtain ⟨j, rfl⟩ := Nat.exists_eq_add_of_le (Nat.le_of_not_lt htag)
    rw [← Nat.add_assoc, Nat.add_assoc x.o, get_writeRecordBytes_payload m hp sum (by omega),
      List.getElem?_append_right (by simp), be32_length, Nat.add_sub_cancel_left]

/-- Every byte of a record is fixed by its operands, payload and sum: writing it again changes nothing. -/
theorem writeRecordBytes_again (hm : m.wf) :
    writeRecordBytes (writeRecordBytes m x payload sum) x payload sum = writeRecordBytes m x payload sum := by
  have hwf := wf_writeRecordBytes hm x payload sum
  refine Memory.eq_of_get_eq (wf_writeRecordBytes hwf x payload sum) hwf fun a => ?_
  simp only [get_writeRecordBytes _ x hp]
  split_ifs <;> rfl

end

/-! ### The command (R77 to R80) -/

variable {s t : State} {adv : Bool}

/-- The state a `WRITE_RECORD` whose checks pass leaves. -/
def withRecord (adv : Bool) (s : State) : State :=
  completeCmd
    { s with
      buf := writeRecordBytes s.buf (operands s) (payloadRead s).1 (recordSum s)
      draws := (payloadRead s).2
      crcPriv := crcUpdate Config.crcInit (be32 (operands s).tag ++ (payloadRead s).1)
      result := recordSum s
      next := toWord (recordEnd (operands s))
      offset := advanceOffset adv s (toWord (recordEnd (operands s))) }

theorem withRecord_next : (withRecord adv s).next = toWord (recordEnd (operands s)) := rfl
theorem withRecord_offset :
    (withRecord adv s).offset = if adv then (withRecord adv s).next else s.offset := rfl
theorem withRecord_buf :
    (withRecord adv s).buf = writeRecordBytes s.buf (operands s) (payloadRead s).1 (recordSum s) := rfl

theorem exec_writeRecord_of_noError (h : recordError s.params (operands s) = none) :
    exec (.writeRecord adv) s = .next (withRecord adv s) :=
  execWriteRecord_fits h

/-- A `WRITE_RECORD` leaves no error only where its checks pass. -/
theorem eq_withRecord_of_exec (h : exec (.writeRecord adv) s = .next t) (ht : t.status.err = false) :
    recordError s.params (operands s) = none ∧ t = withRecord adv s := by
  cases he : recordError s.params (operands s) with
  | some e =>
    have hfail : exec (.writeRecord adv) s = .next (raiseCmdError e s) := execWriteRecord_error he
    obtain rfl : raiseCmdError e s = t := by simpa [hfail] using h
    simp at ht
  | none => exact ⟨rfl, by simpa [exec_writeRecord_of_noError he, eq_comm] using h⟩

/-- A record inside `BUF` ends below `2 ^ 32`, so `NEXT` holds its end (R80). -/
theorem toNat_recordEnd (hl : s.params.legal) (h : recordError s.params (operands s) = none) :
    (toWord (recordEnd (operands s))).toNat = (operands s).o + 12 + (operands s).n := by
  obtain ⟨hfit, -⟩ := (recordError_eq_none_iff _ _).1 h
  have hmax : s.params.bufSize ≤ 2 ^ 31 := hl.2
  rw [toWord, recordEnd, Config.recordFraming, BitVec.toNat_ofNat, Nat.mod_eq_of_lt (by omega)]

/-- Settles O16: a `WRITE_RECORD` without error is `withRecord`, whose `NEXT` is the end of the record. -/
theorem advanceMovesOffsetToNext : Obligations.AdvanceMovesOffsetToNext := by
  intro adv s t hlegal _ hexec hnoErr
  obtain ⟨hchecks, rfl⟩ := eq_withRecord_of_exec hexec hnoErr
  exact ⟨toNat_recordEnd hlegal hchecks, withRecord_offset⟩

/-! ### Reading and writing the record again (R83) -/

/-- The bytes over which a `CHECKSUM` verifies the record are those its sum was taken over. -/
theorem readRange_withRecord_summed (d : Nat) :
    readRange (withRecord adv s).buf ((operands s).o + 4) ((operands s).n + 4) d =
      (be32 (operands s).tag ++ (payloadRead s).1, d) :=
  readRange_eq_of_get (by simp [Nat.add_comm])
    (fun _ hk => get_writeRecordBytes_summed _ (payloadRead_length s) _ hk) d

/-- A `CHECKSUM` over the tag and payload of the record gives the record's sum. -/
theorem exec_checksum_of_record {v : State} (hbuf : v.buf = (withRecord adv s).buf)
    (ho : (operands v).o = (operands s).o + 4) (hn : (operands v).n = (operands s).n + 4)
    (hfit : rangeLeaves v.params (operands v) = false) :
    ∃ u, exec .checksum v = .next u ∧ u.status.err = v.status.err ∧ u.result = recordSum s := by
  refine ⟨_, execChecksum_fits hfit, rfl, ?_⟩
  simp [hbuf, ho, hn, readRange_withRecord_summed, recordSum]

/-- The payload is found again where it was read: in place it is the record's own, and a copied one lies outside the
record. -/
theorem get_withRecord_payload (h : recordError s.params (operands s) = none)
    (hw : RangeWritten s.buf (payloadStart (operands s)) (operands s).n) {k : Nat} (hk : k < (operands s).n) :
    (withRecord adv s).buf.get (payloadStart (operands s) + k) = (payloadRead s).1[k]? := by
  obtain ⟨-, hsource⟩ := (recordError_eq_none_iff _ _).1 h
  obtain ⟨b, hb⟩ := Option.isSome_iff_exists.1 (hw k hk)
  have hread : (payloadRead s).1[k]? = some b := readRange_written _ _ _ _ hk hb
  by_cases hplace : (operands s).s = (operands s).o + 8
  · have hstart : payloadStart (operands s) = (operands s).o + 8 := by simp [payloadStart, payloadInPlace, hplace]
    rw [hstart]
    exact get_writeRecordBytes_payload _ (payloadRead_length s) _ hk
  · have hstart : payloadStart (operands s) = (operands s).s := by simp [payloadStart, payloadInPlace, hplace]
    have hapart : payloadStart (operands s) + k < (operands s).o ∨
        recordEnd (operands s) ≤ payloadStart (operands s) + k := by
      rw [hstart, recordEnd, Config.recordFraming]
      have := hsource (by omega) hplace
      omega
    rw [hread, ← hb]
    exact get_writeRecordBytes_outside _ (payloadRead_length s) _ hapart

/-- Writing the record again from the same operands and written bytes changes neither `BUF` nor `RESULT` nor `NEXT`. -/
theorem exec_writeRecord_again {v : State} (hm : s.buf.wf) (h : recordError s.params (operands s) = none)
    (hw : RangeWritten s.buf (payloadStart (operands s)) (operands s).n)
    (hparams : v.params = s.params) (hops : operands v = operands s) (hbuf : v.buf = (withRecord adv s).buf) :
    ∃ u, exec (.writeRecord adv) v = .next u ∧
      u.buf = v.buf ∧ u.result = recordSum s ∧ u.next = toWord (recordEnd (operands s)) := by
  have hpayload : (payloadRead v).1 = (payloadRead s).1 := by
    rw [payloadRead, hops, hbuf, readRange_eq_of_get (payloadRead_length s) fun _ => get_withRecord_payload h hw]
  have hsum : recordSum v = recordSum s := by rw [recordSum, hops, hpayload, recordSum]
  refine ⟨withRecord adv v, exec_writeRecord_of_noError (by rw [hparams, hops, h]), ?buf, hsum, ?next⟩
  case buf =>
    rw [withRecord_buf, hops, hpayload, hsum, hbuf, withRecord_buf,
      writeRecordBytes_again _ (payloadRead_length s) _ hm]
  case next => rw [withRecord_next, hops]

/-- Settles O48: the fields are cells of the record `withRecord` writes, and the two later commands run on operands that
find the same bytes. -/
theorem writtenRecordVerifies : Obligations.WrittenRecordVerifies := by
  intro adv s t hs hidle hnoErr hexec htnoErr o n
  obtain ⟨hlegal, hwf, -⟩ := hs
  obtain ⟨hchecks, rfl⟩ := eq_withRecord_of_exec hexec htnoErr
  have hops : operands s = sampleOperands s := operands_of_idle hidle
  have ho : (operands s).o = o := by rw [hops]; rfl
  have hn : (operands s).n = n := by rw [hops]; rfl
  have hlen : (operands s).length = s.length := by rw [hops]; rfl
  have hfit : o + 12 + n ≤ s.params.bufSize := ho ▸ hn ▸ ((recordError_eq_none_iff _ _).1 hchecks).1
  have hmax : s.params.bufSize ≤ 2 ^ 31 := hlegal.2
  refine ⟨fun k hk => ?length, fun k hk => ?sum, ?verify, fun hw => ?again⟩
  case length =>
    rw [← be32_getElem? _ hk, ← hlen, ← ho]
    exact get_writeRecordBytes_length _ (payloadRead_length s) _ hk
  case sum =>
    rw [← be32_getElem? _ hk, ← hn, ← ho]
    exact get_writeRecordBytes_sum _ (payloadRead_length s) _ hk
  case verify =>
    have ho4 : (s.offset + 4#32).toNat = o + 4 := by bv_omega
    have hn4 : (s.length + 4#32).toNat = n + 4 := by bv_omega
    have hinside : ¬ s.params.bufSize < (s.offset + 4#32).toNat + (s.length + 4#32).toNat := by omega
    obtain ⟨u, hu, herr, hresult⟩ := exec_checksum_of_record (s := s) (adv := adv)
      (v := { withRecord adv s with offset := s.offset + 4#32, length := s.length + 4#32 })
      rfl (ho ▸ ho4) (hn ▸ hn4) (decide_eq_false hinside)
    exact ⟨u, hu, herr.trans hnoErr, hresult⟩
  case again => exact exec_writeRecord_again hwf hchecks (hn ▸ hw) rfl hops.symm rfl

end Sys2Proof.Machine
end

section
/-! PROOFS. Command errors (60_exceptions.md R90 to R94). `cmdError` says which error a command ends with; `exec`
raises that error and nothing else, or completes, and the statements about errors are read off `cmdError`. -/

namespace Sys2Proof.Machine

/-! ### The codes (R89) -/

theorem CmdError.code_cases (e : CmdError) : e.code = 1#4 ∨ e.code = 2#4 ∨ e.code = 3#4 := by
  cases e with
  | illegalCmd => exact .inl rfl
  | bounds => exact .inr (.inl rfl)
  | overlap => exact .inr (.inr rfl)

theorem CmdError.code_ne_zero (e : CmdError) : e.code ≠ 0#4 := by
  rcases e.code_cases with h | h | h <;> simp [h]

theorem CmdError.code_inj {e f : CmdError} : e.code = f.code ↔ e = f := by
  cases e <;> cases f <;> decide

/-! ### The error of a command (R90, R91) -/

/-- The error a command ends with on operands `x`: the first of its checks that fails. -/
def cmdError (p : Config.Params) (x : Operands) : Instr → Option CmdError
  | .nop => none
  | .crcInit => none
  | .crcFeed => if rangeLeaves p x then some .bounds else none
  | .crcFinal => none
  | .checksum => if rangeLeaves p x then some .bounds else none
  | .writeRecord _ => recordError p x
  | .put32 _ => if fieldLeaves p x then some .bounds else none

section

variable (p : Config.Params) (x : Operands) (adv : Bool) (e : CmdError)

@[simp] theorem cmdError_nop : cmdError p x .nop = none := rfl
@[simp] theorem cmdError_crcInit : cmdError p x .crcInit = none := rfl
@[simp] theorem cmdError_crcFinal : cmdError p x .crcFinal = none := rfl
@[simp] theorem cmdError_writeRecord : cmdError p x (.writeRecord adv) = recordError p x := rfl

@[simp] theorem cmdError_crcFeed_eq_some_iff :
    cmdError p x .crcFeed = some e ↔ rangeLeaves p x = true ∧ .bounds = e := by simp [cmdError]
@[simp] theorem cmdError_checksum_eq_some_iff :
    cmdError p x .checksum = some e ↔ rangeLeaves p x = true ∧ .bounds = e := by simp [cmdError]
@[simp] theorem cmdError_put32_eq_some_iff :
    cmdError p x (.put32 adv) = some e ↔ fieldLeaves p x = true ∧ .bounds = e := by simp [cmdError]

theorem cmdError_crcFeed_eq_bounds_iff : cmdError p x .crcFeed = some .bounds ↔ p.bufSize < x.o + x.n := by
  simp [rangeLeaves]
theorem cmdError_checksum_eq_bounds_iff : cmdError p x .checksum = some .bounds ↔ p.bufSize < x.o + x.n := by
  simp [rangeLeaves]
theorem cmdError_put32_eq_bounds_iff : cmdError p x (.put32 adv) = some .bounds ↔ p.bufSize < x.o + 4 := by
  rw [cmdError_put32_eq_some_iff, fieldLeaves, decide_eq_true_eq, fieldEnd, and_iff_left rfl]

@[simp] theorem cmdError_crcFeed_eq_none_iff : cmdError p x .crcFeed = none ↔ rangeLeaves p x = false := by
  simp [cmdError]
@[simp] theorem cmdError_checksum_eq_none_iff : cmdError p x .checksum = none ↔ rangeLeaves p x = false := by
  simp [cmdError]
@[simp] theorem cmdError_put32_eq_none_iff : cmdError p x (.put32 adv) = none ↔ fieldLeaves p x = false := by
  simp [cmdError]

end

variable {s t : State} {i : Instr} {c : InFlight} {e : CmdError}

theorem exec_of_cmdError (h : cmdError s.params (operands s) i = some e) :
    exec i s = .next (raiseCmdError e s) := by
  cases i with
  | nop | crcInit | crcFinal => simp at h
  | crcFeed =>
    obtain ⟨hl, rfl⟩ := (cmdError_crcFeed_eq_some_iff _ _ _).1 h
    exact execCrcFeed_leaves hl
  | checksum =>
    obtain ⟨hl, rfl⟩ := (cmdError_checksum_eq_some_iff _ _ _).1 h
    exact execChecksum_leaves hl
  | writeRecord adv => exact execWriteRecord_error h
  | put32 adv =>
    obtain ⟨hl, rfl⟩ := (cmdError_put32_eq_some_iff _ _ _ _).1 h
    exact execPut32_leaves hl

theorem exec_of_noCmdError (h : cmdError s.params (operands s) i = none) :
    ∃ u, exec i s = .next (completeCmd u) ∧ u.status = s.status := by
  cases i with
  | nop | crcInit | crcFinal => exact ⟨_, rfl, rfl⟩
  | crcFeed => exact ⟨_, execCrcFeed_fits ((cmdError_crcFeed_eq_none_iff _ _).1 h), rfl⟩
  | checksum => exact ⟨_, execChecksum_fits ((cmdError_checksum_eq_none_iff _ _).1 h), rfl⟩
  | writeRecord adv => exact ⟨_, execWriteRecord_fits h, rfl⟩
  | put32 adv => exact ⟨_, execPut32_fits ((cmdError_put32_eq_none_iff _ _ _).1 h), rfl⟩

/-- With no error pending, the code in `ERRCODE` after a command tells its error. -/
theorem exec_errcode_iff (h0 : s.status.errcode = 0#4) :
    (∃ t, exec i s = .next t ∧ t.status.errcode = e.code) ↔ cmdError s.params (operands s) i = some e := by
  cases hc : cmdError s.params (operands s) i with
  | some f => simp [exec_of_cmdError hc, CmdError.code_inj]
  | none =>
    obtain ⟨u, hexec, hstatus⟩ := exec_of_noCmdError hc
    simp [hexec, hstatus, h0, e.code_ne_zero.symm]

/-- Settles O17: the table of R90 is `cmdError` answering `BOUNDS`, row by row. -/
theorem boundsExactlyWhenARangeLeavesBuf : Obligations.BoundsExactlyWhenARangeLeavesBuf := by
  intro i s _ h0 x o n src size
  refine (exec_errcode_iff (e := .bounds) h0).trans ?table
  cases i with
  | nop | crcInit | crcFinal => simp
  | crcFeed => exact cmdError_crcFeed_eq_bounds_iff s.params x
  | checksum => exact cmdError_checksum_eq_bounds_iff s.params x
  | writeRecord adv => exact recordError_eq_bounds_iff s.params x
  | put32 adv => exact cmdError_put32_eq_bounds_iff s.params x adv

/-- Two nonempty half-open ranges overlap exactly when each begins before the other ends. -/
theorem exists_mem_both_ranges_iff {a b c d : Nat} (hab : a < b) (hcd : c < d) :
    (∃ k, (a ≤ k ∧ k < b) ∧ (c ≤ k ∧ k < d)) ↔ a < d ∧ c < b := by
  constructor
  · rintro ⟨k, ⟨hak, hkb⟩, hck, hkd⟩
    exact ⟨by omega, by omega⟩
  · rintro ⟨had, hcb⟩
    exact ⟨max a c, by omega, by omega⟩

/-- Settles O18: only `WRITE_RECORD` has an `OVERLAP` check, whose two inequalities say that the ranges share a byte. -/
theorem overlapExactlyWhenSourceMeetsRecord : Obligations.OverlapExactlyWhenSourceMeetsRecord := by
  intro i s _ h0 x o n src size
  refine (exec_errcode_iff (e := .overlap) h0).trans ?_
  cases i with
  | writeRecord adv =>
    have hshare (hn : 0 < n) : (∃ a, (src ≤ a ∧ a < src + n) ∧ (o ≤ a ∧ a < o + 12 + n)) ↔
        src < o + 12 + n ∧ o < src + n := exists_mem_both_ranges_iff (by omega) (by omega)
    have hcheck : recordError s.params x = some .overlap ↔ o + 12 + n ≤ size ∧ src + n ≤ size ∧
        0 < n ∧ src ≠ o + 8 ∧ src < o + 12 + n ∧ o < src + n := recordError_eq_overlap_iff s.params x
    rw [cmdError_writeRecord, hcheck]
    constructor
    · rintro ⟨hrecord, hsource, hn, hne, hmeet⟩
      exact ⟨⟨adv, rfl⟩, hrecord, hsource, hn, hne, (hshare hn).2 hmeet⟩
    · rintro ⟨-, hrecord, hsource, hn, hne, hbyte⟩
      exact ⟨hrecord, hsource, hn, hne, (hshare hn).1 hbyte⟩
  | _ => simp

/-! ### Errors of the command in flight (R92 to R94) -/

/-- Settles O19: the engine's move raises an error, which changes `STATUS` and the flight alone, or completes with the
`ERR` it began with. -/
theorem failedCommandWritesOnlyStatus : Obligations.FailedCommandWritesOnlyStatus := by
  intro s t c hnoErr hf hw hr hstep hErr
  rw [step_engine (resetNow_eq_false hr) hf hw] at hstep
  obtain ⟨e, rfl⟩ | ⟨u, rfl, hframe, -, -⟩ := engineMove_cases hstep
  · exact ⟨e.code, e.code_cases, rfl⟩
  · simp [hframe.status, hnoErr] at hErr

/-- A command in flight whose operands fail a check ends the engine's step with that error. -/
theorem step_of_cmdError (hr : s.rstN.head? ≠ some false) (hf : s.inFlight = some c) (hw : c.wait = 0)
    (hd : decode c.word = .command i) (he : cmdError s.params c.ops i = some e) :
    step s = .next (raiseCmdError e (beginStep s)) := by
  rw [step_engine (resetNow_eq_false hr) hf hw, engineMove, hd]
  exact exec_of_cmdError (by simpa [operands_of_inFlight hf] using he)

/-- Settles O20: an illegal word has no operands to check, and `recordError` is the first check of R93 that fails. -/
theorem firstErrorIsReported : Obligations.FirstErrorIsReported := by
  intro s c _ hf hw hr
  refine ⟨?illegal, ?record⟩
  case illegal =>
    rintro ⟨why, hd⟩
    exact ⟨_, step_illegal hr hf hw hd, rfl⟩
  case record =>
    intro adv hd o n src copied
    have hreports {e : CmdError} (he : recordError s.params c.ops = some e) :
        ∃ t, step s = .next t ∧ t.status.errcode = e.code := ⟨_, step_of_cmdError hr hf hw hd he, rfl⟩
    refine ⟨fun hrecord => ?recordLeaves, fun _ hcopied hsource => ?sourceLeaves,
      fun hrecord hcopied hsource hlo hhi => ?overlap⟩
    case recordLeaves => exact hreports ((recordError_eq_bounds_iff _ _).2 (.inl hrecord))
    case sourceLeaves =>
      obtain ⟨hn, hne⟩ := hcopied
      exact hreports ((recordError_eq_bounds_iff _ _).2 (.inr ⟨hn, hne, hsource⟩))
    case overlap =>
      obtain ⟨hn, hne⟩ := hcopied
      exact hreports ((recordError_eq_overlap_iff _ _).2 ⟨hrecord, hsource, hn, hne, hlo, hhi⟩)

end Sys2Proof.Machine
end

section
/-! PROOFS. A rising edge with `rst_n = 0` (70_reset_and_hazards.md R106, R107, R109). -/

namespace Sys2Proof.Machine

variable {s : State}

/-- A step whose sample of `rst_n` is 0 is the reset edge, whatever is in flight (R106). -/
theorem step_of_rstN_low (hr : s.rstN.head? = some false) : step s = .next (resetEdge (beginStep s)) :=
  step_reset ((resetNow_iff s).2 hr)

theorem bufAfterReset_of_idle (hf : s.inFlight = none) : bufAfterReset s = s.buf := by
  simp [bufAfterReset, hf]

/-- Settles O40: the step is the reset edge, which sets each register; the step's start clears the port and takes the
sample. -/
theorem resetSetsTheRegisters : Obligations.ResetSetsTheRegisters := by
  intro s rest hr
  have hstep : step s = .next (resetEdge (beginStep s)) := step_of_rstN_low (by simp [hr])
  exact ⟨_, hstep, by simp [Status.reset, hr]⟩

/-- Settles O41: the reset edge leaves `bufAfterReset`, which without a command in flight is `BUF` as it was. -/
theorem idleResetKeepsBuf : Obligations.IdleResetKeepsBuf := by
  intro s t hf hr hstep
  rw [step_of_rstN_low hr] at hstep
  obtain rfl : resetEdge (beginStep s) = t := by injection hstep
  calc (resetEdge (beginStep s)).buf
      _ = bufAfterReset (beginStep s) := resetEdge_buf _
      _ = (beginStep s).buf := bufAfterReset_of_idle hf
      _ = s.buf := beginStep_buf s

end Sys2Proof.Machine
end

section
/-! PROOFS. The decoder and the disassembler against the encoder (30_encoding.md R56 to R62, R66). -/

namespace Sys2Proof

/-- Settles O2: `decode_eq_command_iff` is both directions at once. -/
theorem decodeAndEncodeAgree : Obligations.DecodeAndEncodeAgree :=
  ⟨fun _ _ => decode_eq_command_iff.2 rfl, fun _ _ h => (decode_eq_command_iff.1 h).symm⟩

/-- Settles O3: thirteen fixed words, evaluated. -/
theorem specWordsDecode : Obligations.SpecWordsDecode := by
  unfold Obligations.SpecWordsDecode
  decide

theorem encode_injective {i j : Instr} (h : encode i = encode j) : i = j := by
  have hj : decode (encode i) = .command j := decode_eq_command_iff.2 h
  rw [decode_eq_command_iff.2 rfl] at hj
  injection hj

theorem assemble_spelling (i : Instr) : assemble i.spelling = some (encode i) := by
  cases i with
  | writeRecord adv => cases adv <;> decide
  | put32 adv => cases adv <;> decide
  | _ => decide

/-- A spelling assembles to one word, and a word is one command's. -/
theorem Instr.spelling_injective {i j : Instr} (h : i.spelling = j.spelling) : i = j := by
  have hword : some (encode i) = some (encode j) := by rw [← assemble_spelling, h, assemble_spelling]
  exact encode_injective (Option.some.inj hword)

/-- Settles O56: a word that decodes is its command's word, and a word that does not is no command's. -/
theorem disassemblyFollowsTheTable : Obligations.DisassemblyFollowsTheTable := by
  refine ⟨fun w => ?_, fun _ _ => Instr.spelling_injective⟩
  cases hd : decode w with
  | command i =>
    obtain rfl : w = encode i := decode_eq_command_iff.1 hd
    exact .inl ⟨i, rfl, rfl, by simp [disassemble, hd], assemble_spelling i⟩
  | illegal why =>
    refine .inr ⟨fun i hi => ?_, by simp [disassemble, hd]⟩
    rw [decode_eq_command_iff.2 hi.symm] at hd
    cases hd

end Sys2Proof
end

section
/-! PROOFS. What a step keeps: the frame of every step, and the invariant `Consistent` (10_state.md R13, R27, R30;
20_memory.md R53). -/

namespace Sys2Proof.Machine

variable {s t u : State} {c : InFlight} {tr : Transfer}

/-! ### A move of the host -/

/-- A host move sets the host's line and nothing else (the same line, where a transfer is held or the script has ended),
or completes a transfer that is not held. -/
theorem hostMove_effect (h : hostMove s = .next t) :
    (∃ k, t = { s with host := { s.host with line := k } }) ∨
      ∃ line tr p k v u, currentLine s = some line ∧ line.act = .transfer tr ∧ held tr s = false ∧
        TransferEffect tr s u ∧ t = { u with port := some p, host := { s.host with line := k, lastR32 := v } } := by
  obtain ⟨-, rfl⟩ | hline | ⟨line, tr, hline, hact, rfl⟩ := hostMove_cases h
  · exact .inl ⟨t.host.line, rfl⟩
  · exact .inl hline
  · cases hh : held tr s with
    | true => exact .inl ⟨s.host.line, hostTransfer_of_held hh⟩
    | false =>
      obtain ⟨p, u, hu, heffect⟩ := completeTransfer_cases tr s
      exact .inr ⟨line, tr, p, _, _, u, hline, hact, hh, heffect, by rw [hostTransfer_of_free hh, hu]⟩

/-- While `BUSY = 1` only a read is not held. -/
theorem busy_eq_false_of_write (hh : held tr s = false) (hw : tr.we = true) : s.status.busy = false := by
  simpa [held, Transfer.isStatusRead, hw] using hh

/-! ### The frame of a step -/

/-- What no step changes, and the sample of `rst_n` every step takes. -/
structure StepFrame (s t : State) : Prop where
  params : t.params = s.params
  script : t.host.script = s.host.script
  rstN : t.rstN = s.rstN.tail

/-- What no move of the host changes. -/
structure HostFrame (s t : State) : Prop where
  params : t.params = s.params
  script : t.host.script = s.host.script
  rstN : t.rstN = s.rstN

theorem TransferEffect.hostFrame (h : TransferEffect tr s u) : HostFrame s u := by
  cases h <;> exact ⟨rfl, rfl, rfl⟩

theorem hostMove_frame (h : hostMove s = .next t) : HostFrame s t := by
  obtain ⟨k, rfl⟩ | ⟨line, tr, p, k, v, u, -, -, -, heffect, rfl⟩ := hostMove_effect h
  · exact ⟨rfl, rfl, rfl⟩
  · exact ⟨heffect.hostFrame.params, rfl, heffect.hostFrame.rstN⟩

theorem step_frame (h : step s = .next t) : StepFrame s t := by
  obtain ⟨-, rfl⟩ | ⟨-, -, hhost⟩ | ⟨c, -, -, -, hengine⟩ | ⟨c, k, -, -, -, hhost⟩ := step_cases h
  · exact ⟨rfl, rfl, rfl⟩
  · exact ⟨(hostMove_frame hhost).params, (hostMove_frame hhost).script, (hostMove_frame hhost).rstN⟩
  · obtain ⟨e, rfl⟩ | ⟨u, rfl, hframe, -, -⟩ := engineMove_cases hengine
    · exact ⟨rfl, rfl, rfl⟩
    · exact ⟨hframe.params, congrArg HostAgent.script hframe.host, hframe.rstN⟩
  · exact ⟨(hostMove_frame hhost).params, (hostMove_frame hhost).script, (hostMove_frame hhost).rstN⟩

/-- Settles O24: the parameters are in the frame of a step. -/
theorem noStepChangesTheParameters : Obligations.NoStepChangesTheParameters :=
  fun _ _ h => (step_frame h).params

/-! ### The invariant -/

theorem Consistent.idle (hs : Consistent s) (hb : s.status.busy = false) : s.inFlight = none := by
  obtain ⟨-, -, -, -, -, hflight, -⟩ := hs
  rwa [FlightIsBusy, hb, Option.isSome_eq_false_iff, Option.isNone_iff_eq_none] at hflight

theorem Consistent.busy (hs : Consistent s) (hf : s.inFlight = some c) : s.status.busy = true := by
  obtain ⟨-, -, -, -, -, hflight, -⟩ := hs
  rw [← hflight, hf, Option.isSome_some]

theorem consistent_beginStep (hs : Consistent s) : Consistent (beginStep s) := hs

theorem consistent_waitMove (hs : Consistent s) (hf : s.inFlight = some c) (k : Nat) :
    Consistent (waitMove c k s) := by
  obtain ⟨hlegal, hwf, hinside, hcode, hflags, hflight, hheld⟩ := hs
  refine ⟨hlegal, hwf, hinside, hcode, hflags, ?flight, ?operands⟩
  case flight => simpa [FlightIsBusy, hf] using hflight
  case operands =>
    rw [OperandsHeld, operands_of_inFlight hf] at hheld
    exact hheld

theorem consistent_raiseCmdError (hs : Consistent s) (e : CmdError) : Consistent (raiseCmdError e s) := by
  obtain ⟨hlegal, hwf, hinside, -, -, -, -⟩ := hs
  exact ⟨hlegal, hwf, hinside, .inr ⟨rfl, e.code_cases⟩, by simp [Status.flagsLegal], rfl, rfl⟩

theorem consistent_completeCmd (hlegal : u.params.legal) (hwf : u.buf.wf) (hinside : CellsInside u)
    (hcode : u.status.codeLegal) : Consistent (completeCmd u) :=
  ⟨hlegal, hwf, hinside, hcode, by simp [Status.flagsLegal], rfl, rfl⟩

theorem consistent_engineMove (hs : Consistent s) (h : engineMove c s = .next t) : Consistent t := by
  obtain ⟨e, rfl⟩ | ⟨u, rfl, hframe, hwf', hinside'⟩ := engineMove_cases h
  · exact consistent_raiseCmdError hs e
  · obtain ⟨hlegal, hwf, hinside, hcode, -, -, -⟩ := hs
    exact consistent_completeCmd (hframe.params ▸ hlegal) (hwf' hwf) (hinside' hinside) (hframe.status ▸ hcode)

theorem wf_bufAfterReset (hwf : s.buf.wf) : (bufAfterReset s).wf := by
  unfold bufAfterReset
  split
  · exact hwf
  · exact Memory.wf_erase hwf _ _

theorem bufAfterReset_subset : bufAfterReset s ⊆ s.buf := by
  unfold bufAfterReset
  split
  · exact fun _ => id
  · exact fun _ => Memory.mem_erase

theorem consistent_resetEdge (hs : Consistent s) : Consistent (resetEdge s) := by
  obtain ⟨hlegal, hwf, hinside, -, -, -, -⟩ := hs
  exact ⟨hlegal, wf_bufAfterReset hwf, fun c hc => hinside c (bufAfterReset_subset hc), .inl ⟨rfl, rfl⟩,
    by simp [Status.flagsLegal, Status.reset], rfl, rfl⟩

/-- Bit 2 of a `STATUS` write clears the error (R28). -/
theorem Status.hostWrite_clears {w : Word} (h : w.getLsbD 2 = true) (st : Status) :
    (st.hostWrite w).err = false ∧ (st.hostWrite w).errcode = 0#4 := by
  rw [hostWrite_err, hostWrite_errcode, h]
  exact ⟨rfl, rfl⟩

theorem Status.hostWrite_keeps {w : Word} (h : w.getLsbD 2 = false) (st : Status) :
    (st.hostWrite w).err = st.err ∧ (st.hostWrite w).errcode = st.errcode := by
  rw [hostWrite_err, hostWrite_errcode, h]
  exact ⟨rfl, rfl⟩

theorem Status.codeLegal_hostWrite {st : Status} (h : st.codeLegal) (w : Word) : (st.hostWrite w).codeLegal := by
  cases hw : w.getLsbD 2 with
  | true => exact .inl (st.hostWrite_clears hw)
  | false =>
    obtain ⟨herr, hcode⟩ := st.hostWrite_keeps hw
    rwa [Status.codeLegal, herr, hcode]

/-- A transfer that is not held keeps the invariant: a write completes only with no command in flight, whose operands it
could change. -/
theorem consistent_of_transferEffect (hs : Consistent s) (hh : held tr s = false) (h : TransferEffect tr s u) :
    Consistent u := by
  have hidle (hw : tr.we = true) : s.inFlight = none := hs.idle (busy_eq_false_of_write hh hw)
  have ⟨hlegal, hwf, hinside, hcode, hflags, hflight, hheld⟩ := hs
  cases h with
  | nothing d => exact hs
  | accept k l hw haddr hok =>
    exact ⟨hlegal, hwf, hinside, hcode, fun _ => ⟨rfl, hok⟩, rfl, rfl⟩
  | status hw haddr hsize =>
    have hbusy := busy_eq_false_of_write hh hw
    exact ⟨hlegal, hwf, hinside, Status.codeLegal_hostWrite hcode _, by simp [Status.flagsLegal, hbusy], hflight, hheld⟩
  | operand o n src tag data acc hw =>
    exact ⟨hlegal, hwf, hinside, hcode, hflags, hflight, operands_of_idle (hidle hw)⟩
  | cell i b hi hw =>
    refine ⟨hlegal, Memory.wf_set hwf i b, fun c hc => ?_, hcode, hflags, hflight, hheld⟩
    obtain rfl | hc := Memory.mem_set hc
    · exact hi
    · exact hinside c hc

theorem consistent_hostMove (hs : Consistent s) (h : hostMove s = .next t) : Consistent t := by
  obtain ⟨k, rfl⟩ | ⟨line, tr, p, k, v, u, -, -, hh, heffect, rfl⟩ := hostMove_effect h
  · exact hs
  · have hu : Consistent u := consistent_of_transferEffect hs hh heffect
    exact hu

/-- Settles O38: each of the four moves a step can be keeps the invariant. -/
theorem everyStepKeepsTheInvariant : Obligations.EveryStepKeepsTheInvariant := by
  intro s t hs h
  have hbegin := consistent_beginStep hs
  obtain ⟨-, rfl⟩ | ⟨-, -, hhost⟩ | ⟨c, -, -, -, hengine⟩ | ⟨c, k, -, hf, -, hhost⟩ := step_cases h
  · exact consistent_resetEdge hbegin
  · exact consistent_hostMove hbegin hhost
  · exact consistent_engineMove hbegin hengine
  · exact consistent_hostMove (consistent_waitMove hbegin hf k) hhost

theorem consistent_powerOn {p : Config.Params} (hp : p.legal) : Consistent (State.powerOn p) :=
  ⟨hp, powerOn_buf_wf p, fun _ hc => (nomatch hc), .inl ⟨rfl, rfl⟩, fun hb => (nomatch hb), rfl, rfl⟩

/-- Settles O39: nothing is written, pending or in flight. -/
theorem powerOnMeetsTheInvariant : Obligations.PowerOnMeetsTheInvariant :=
  ⟨fun _ => consistent_powerOn, consistent_powerOn ⟨by decide, by decide⟩⟩

/-! ### A pending error -/

/-- A transfer's effect on `ERR` and `ERRCODE` while `ERR = 1`: only a `STATUS` write with bit 2 touches them. -/
theorem errcode_of_transferEffect (he : s.status.err = true) (h : TransferEffect tr s u) :
    u.inFlight = s.inFlight ∧
    ((u.status.err = true ∧ u.status.errcode = s.status.errcode) ∨
      (u.status.err = false ∧ u.status.errcode = 0#4 ∧
        tr.we = true ∧ tr.addr = 0x04#32 ∧ tr.size = .word ∧ tr.wdata.getLsbD 2 = true)) := by
  cases h with
  | nothing d => exact ⟨rfl, .inl ⟨he, rfl⟩⟩
  | accept k l hw haddr hok => simp [he] at hok
  | status hw haddr hsize =>
    cases hbit : tr.wdata.getLsbD 2 with
    | true =>
      obtain ⟨herr, hcode⟩ := s.status.hostWrite_clears hbit
      exact ⟨rfl, .inr ⟨herr, hcode, hw, haddr, hsize, rfl⟩⟩
    | false =>
      obtain ⟨herr, hcode⟩ := s.status.hostWrite_keeps hbit
      exact ⟨rfl, .inl ⟨herr.trans he, hcode⟩⟩
  | operand o n src tag data acc hw => exact ⟨rfl, .inl ⟨he, rfl⟩⟩
  | cell i b hi hw => exact ⟨rfl, .inl ⟨he, rfl⟩⟩

/-- Settles O21: with an error pending no command is in flight, so the step is a reset or a host move, and a host move
that is no transfer leaves CRM alone. -/
theorem onlyClearOrResetEndsAnError : Obligations.OnlyClearOrResetEndsAnError := by
  intro s t hs he h
  have ⟨_, _, _, _, hflags, _, _⟩ := hs
  have hidle : s.inFlight = none :=
    hs.idle (Bool.eq_false_of_not_eq_true fun hb => Bool.false_ne_true ((hflags hb).2.symm.trans he))
  obtain ⟨hr, rfl⟩ | ⟨-, -, hhost⟩ | ⟨c, -, hf, -, -⟩ | ⟨c, k, -, hf, -, -⟩ := step_cases h
  · exact ⟨rfl, .inr ⟨rfl, rfl, .inl ((resetNow_iff s).1 hr)⟩⟩
  · obtain ⟨k, rfl⟩ | ⟨line, tr, p, k, v, u, hline, hact, -, heffect, rfl⟩ := hostMove_effect hhost
    · exact ⟨hidle, .inl ⟨he, rfl⟩⟩
    · obtain ⟨hflight, hstays | ⟨herr, hcode, hwrite⟩⟩ := errcode_of_transferEffect (s := beginStep s) he heffect
      · exact ⟨hflight.trans hidle, .inl hstays⟩
      · exact ⟨hflight.trans hidle, .inr ⟨herr, hcode, .inr ⟨line, tr, hline, hact, hwrite⟩⟩⟩
  · simp [hidle] at hf
  · simp [hidle] at hf

end Sys2Proof.Machine
end

section
/-! PROOFS. The CRC-32 function (40_crc.md R67, R70) and the checksum commands (R71 to R74). -/

namespace Sys2Proof.Machine

variable {s t : State}

/-! ### The function (R67, R70) -/

/-- The polynomial's top bit is 1 and a shift brings in a 0, so the top bit after a bit step is the bit shifted out. -/
theorem crcShift_msb (c : Word) : (crcShift c).getLsbD 31 = c.getLsbD 0 := by
  rw [crcShift_eq_xor_feedback, BitVec.getLsbD_xor, BitVec.getLsbD_ushiftRight,
    BitVec.getLsbD_of_ge c (1 + 31) (by decide), Bool.false_xor]
  cases c.getLsbD 0 <;> rfl

/-- The bit shifted out can be read off the result, and with it the polynomial taken back out. -/
theorem crcShift_injective {c c' : Word} (h : crcShift c = crcShift c') : c = c' := by
  have hlow : c.getLsbD 0 = c'.getLsbD 0 := by rw [← crcShift_msb c, h, crcShift_msb]
  have hhigh : c >>> 1 = c' >>> 1 := by
    rwa [crcShift_eq_xor_feedback, crcShift_eq_xor_feedback, hlow, BitVec.xor_left_inj] at h
  refine BitVec.eq_of_getLsbD_eq fun i _ => ?_
  cases i with
  | zero => exact hlow
  | succ j =>
    have hbit := congrArg (BitVec.getLsbD · j) hhigh
    simpa [Nat.add_comm] using hbit

theorem crcShifts_injective {k : Nat} {c c' : Word} (h : crcShifts k c = crcShifts k c') : c = c' := by
  induction k generalizing c c' with
  | zero => exact h
  | succ k ih => exact crcShift_injective (ih h)

/-- Settles O8: eight injective bit steps after an exclusive or with the byte. -/
theorem crcByteLosesNothing : Obligations.CrcByteLosesNothing := by
  refine ⟨fun c c' b h => ?register, fun c b b' h => ?byte⟩
  case register => exact (BitVec.xor_left_inj _).1 (crcShifts_injective h)
  case byte =>
    have hwide : b.setWidth 32 = b'.setWidth 32 := (BitVec.xor_right_inj _).1 (crcShifts_injective h)
    simpa using congrArg (BitVec.setWidth 8) hwide

theorem crcUpdate_append (c : Word) (a b : List Byte) : crcUpdate c (a ++ b) = crcUpdate (crcUpdate c a) b := by
  induction a generalizing c with
  | nil => rfl
  | cons x rest ih => exact ih (crcByte c x)

/-- Settles O6: the two laws of the empty input are evaluated. -/
theorem crcOfConcatenation : Obligations.CrcOfConcatenation :=
  ⟨fun _ => rfl, rfl, crcUpdate_append⟩

/-- Settles O7: nine byte steps, evaluated. -/
theorem crcCheckValue : Obligations.CrcCheckValue := by
  unfold Obligations.CrcCheckValue
  decide +kernel

theorem crcFinish_eq_not (c : Word) : crcFinish c = ~~~c := BitVec.xor_allOnes

/-! ### The bytes of a range -/

/-- The cells that cost a draw, counted by their place in the range. -/
theorem unwrittenIn_eq_length_filter (m : Memory) (a n : Nat) :
    unwrittenIn m a n = ((List.range n).filter fun k => (m.get (a + k)).isNone).length := by
  induction n generalizing a with
  | zero => rfl
  | succ n ih =>
    have hrest : ((fun k => (m.get (a + k)).isNone) ∘ Nat.succ) = fun k => (m.get (a + 1 + k)).isNone := by
      funext k
      simp [Nat.add_assoc, Nat.add_comm 1 k]
    rw [unwrittenIn, ih, List.range_succ_eq_map, List.filter_cons, List.filter_map, hrest]
    cases m.get a <;> simp [Nat.add_comm]

/-- A range is read in two pieces, the second with the draws the first left. -/
theorem readRange_add (m : Memory) (a i j d : Nat) :
    readRange m a (i + j) d =
      ((readRange m a i d).1 ++ (readRange m (a + i) j (readRange m a i d).2).1,
        (readRange m (a + i) j (readRange m a i d).2).2) := by
  induction i generalizing a d with
  | zero => simp
  | succ i ih =>
    rw [Nat.add_right_comm, readRange_succ, ih, readRange_succ, Nat.add_assoc a 1 i, Nat.add_comm 1 i]
    rfl

/-! ### The commands (R71 to R74) -/

/-- Settles O9: the statement is `completeCmd` written out. -/
theorem nopOnlyCompletes : Obligations.NopOnlyCompletes := fun _ => rfl

/-- Settles O10: as `NOP`, after the one write. -/
theorem crcInitSetsTheAccumulator : Obligations.CrcInitSetsTheAccumulator := fun _ => rfl

theorem exec_crcFinal (s : State) :
    exec .crcFinal s = .next (completeCmd { s with result := ~~~(operands s).crcAcc }) := by
  rw [← crcFinish_eq_not]
  rfl

/-- Settles O11: the second run complements the register that the first one sampled and left alone. -/
theorem crcFinalComplementsTheAccumulator : Obligations.CrcFinalComplementsTheAccumulator := by
  intro s
  refine ⟨_, exec_crcFinal s, rfl, fun hheld => ?again⟩
  case again =>
    rw [exec_crcFinal, hheld]
    rfl

theorem rangeLeaves_eq_false {p : Config.Params} {x : Operands} (h : x.o + x.n ≤ p.bufSize) :
    rangeLeaves p x = false :=
  decide_eq_false (Nat.not_lt.2 h)

/-- Settles O12: the bytes are those `readRange` reads. -/
theorem crcFeedAdvancesOverTheRange : Obligations.CrcFeedAdvancesOverTheRange := by
  intro s x hfits
  refine ⟨(readRange s.buf x.o x.n s.draws).1, readRange_length _ _ _ _, fun k b => readRange_written _ _ _ _, ?exec⟩
  case exec =>
    refine (execCrcFeed_fits (rangeLeaves_eq_false hfits)).trans ?_
    rw [readRange_draws, unwrittenIn_eq_length_filter]
    rfl

/-- Settles O13: as `CRC_FEED`, with the final complement in `RESULT`. -/
theorem checksumGivesTheCrcOfTheRange : Obligations.ChecksumGivesTheCrcOfTheRange := by
  intro s x hfits
  refine ⟨(readRange s.buf x.o x.n s.draws).1, readRange_length _ _ _ _, fun k b => readRange_written _ _ _ _, ?exec⟩
  case exec =>
    refine (execChecksum_fits (rangeLeaves_eq_false hfits)).trans ?_
    rw [readRange_draws, unwrittenIn_eq_length_filter, crc32, crcFinish_eq_not, BitVec.not_not]
    rfl

/-- What a `CRC_FEED` that ends where its range fits leaves. -/
theorem eq_of_exec_crcFeed (h : exec .crcFeed s = .next t) (hidle : s.inFlight = none)
    (hfits : s.offset.toNat + s.length.toNat ≤ s.params.bufSize) :
    t = completeCmd
      { s with
        crcAcc := crcUpdate s.crcAcc (readRange s.buf s.offset.toNat s.length.toNat s.draws).1
        draws := (readRange s.buf s.offset.toNat s.length.toNat s.draws).2 } := by
  have hops : operands s = sampleOperands s := operands_of_idle hidle
  have hexec := execCrcFeed_fits (s := s) (rangeLeaves_eq_false (hops ▸ hfits))
  rw [hops] at hexec
  exact Host.Outcome.next.inj (h.symm.trans hexec)

/-- The `RESULT` of a `CHECKSUM` whose range fits; `CRC_ACC` stays. -/
theorem result_of_exec_checksum
    (hfits : (operands s).offset.toNat + (operands s).length.toNat ≤ s.params.bufSize)
    (h : exec .checksum s = .next t) :
    t.result = crc32 (readRange s.buf (operands s).offset.toNat (operands s).length.toNat s.draws).1 ∧
      t.crcAcc = s.crcAcc := by
  have hexec := execChecksum_fits (rangeLeaves_eq_false hfits)
  obtain rfl := Host.Outcome.next.inj (h.symm.trans hexec)
  exact ⟨rfl, rfl⟩

theorem toNat_word_ofNat {n : Nat} (h : n < 2 ^ 32) : (BitVec.ofNat 32 n).toNat = n :=
  (BitVec.toNat_ofNat n 32).trans (Nat.mod_eq_of_lt h)

/-- Settles O44: the range is read in pieces and the CRC taken in pieces, also where the bytes are drawn. -/
theorem feedingInPiecesIsFeedingAtOnce : Obligations.FeedingInPiecesIsFeedingAtOnce := by
  intro s t u v n1 n2 hidle hfits hlen hstart _ ht hu hv
  have hn1 : (BitVec.ofNat 32 n1).toNat = n1 := toNat_word_ofNat (by omega)
  have hn2 : (BitVec.ofNat 32 n2).toNat = n2 := toNat_word_ofNat (by omega)
  have hn : (BitVec.ofNat 32 (n1 + n2)).toNat = n1 + n2 := toNat_word_ofNat hlen
  have ho : (BitVec.ofNat 32 (s.offset.toNat + n1)).toNat = s.offset.toNat + n1 := toNat_word_ofNat hstart
  obtain rfl := eq_of_exec_crcFeed ht hidle (by simp only [hn1]; omega)
  obtain rfl := eq_of_exec_crcFeed hu rfl (by simpa only [hn2, ho, completeCmd_params] using hfits)
  obtain rfl := eq_of_exec_crcFeed hv hidle (by simp only [hn]; omega)
  simp [hn1, hn2, hn, ho, readRange_add, crcUpdate_append]

/-- Settles O45: the three commands run on the same range and draws, from `CRC_INIT`'s register to the complement. -/
theorem checksumIsInitFeedFinal : Obligations.ChecksumIsInitFeedFinal := by
  intro s t1 t2 t3 u hidle _ hfits _ h1 h2 h3 hu
  have hops : operands s = sampleOperands s := operands_of_idle hidle
  obtain ⟨hresult, hacc⟩ := result_of_exec_checksum (hops ▸ hfits) hu
  obtain rfl := Host.Outcome.next.inj h1
  obtain rfl := eq_of_exec_crcFeed h2 rfl hfits
  obtain rfl := Host.Outcome.next.inj h3
  exact ⟨by rw [hresult, hops]; rfl, hacc⟩

/-- Settles O46: written bytes that agree are read alike, whatever the draws. -/
theorem checksumDependsOnItsRangeAlone : Obligations.ChecksumDependsOnItsRangeAlone := by
  intro s s' t t' ho hn hfits hfits' hwritten hagree ht ht'
  have hget : ∀ k < (operands s).length.toNat,
      s.buf.get ((operands s).offset.toNat + k) = s'.buf.get ((operands s).offset.toNat + k) :=
    fun k hk => hagree _ (by omega) (by omega)
  have hwritten' : RangeWritten s'.buf (operands s).offset.toNat (operands s).length.toNat :=
    fun k hk => hget k hk ▸ hwritten k hk
  rw [(result_of_exec_checksum hfits ht).1, (result_of_exec_checksum hfits' ht').1, ← ho, ← hn,
    readRange_prepared hwritten, readRange_prepared hwritten', readRange_congr hget]

end Sys2Proof.Machine
end

section
/-! PROOFS. What each command writes (10_state.md R17), the fields `WRITE_RECORD` and `PUT32` lay down (41_marshal.md R75
to R81) and chains of records (R82). -/

namespace Sys2Proof.Machine

variable {s t : State} {i : Instr} {adv : Bool}

/-! ### The writes of a command -/

/-- The state a command completes, when its checks pass: the writes of its pseudocode (R71 to R84). -/
def commandWrites (i : Instr) (s : State) : State :=
  match i with
  | .nop => s
  | .crcInit => { s with crcAcc := Config.crcInit }
  | .crcFeed =>
    { s with
      crcAcc := crcUpdate (operands s).crcAcc (readRange s.buf (operands s).o (operands s).n s.draws).1
      draws := (readRange s.buf (operands s).o (operands s).n s.draws).2 }
  | .crcFinal => { s with result := crcFinish (operands s).crcAcc }
  | .checksum =>
    { s with
      crcPriv := crcUpdate Config.crcInit (readRange s.buf (operands s).o (operands s).n s.draws).1
      result := crc32 (readRange s.buf (operands s).o (operands s).n s.draws).1
      draws := (readRange s.buf (operands s).o (operands s).n s.draws).2 }
  | .writeRecord adv =>
    { s with
      buf := writeRecordBytes s.buf (operands s) (payloadRead s).1 (recordSum s)
      draws := (payloadRead s).2
      crcPriv := crcUpdate Config.crcInit (be32 (operands s).tag ++ (payloadRead s).1)
      result := recordSum s
      next := toWord (recordEnd (operands s))
      offset := advanceOffset adv s (toWord (recordEnd (operands s))) }
  | .put32 adv =>
    { s with
      buf := s.buf.writeRange (operands s).o (be32 (operands s).data)
      next := toWord (fieldEnd (operands s))
      offset := advanceOffset adv s (toWord (fieldEnd (operands s))) }

theorem exec_eq_commandWrites (h : cmdError s.params (operands s) i = none) :
    exec i s = .next (completeCmd (commandWrites i s)) := by
  cases i with
  | nop | crcInit | crcFinal => rfl
  | crcFeed => exact execCrcFeed_fits ((cmdError_crcFeed_eq_none_iff _ _).1 h)
  | checksum => exact execChecksum_fits ((cmdError_checksum_eq_none_iff _ _).1 h)
  | writeRecord adv => exact execWriteRecord_fits h
  | put32 adv => exact execPut32_fits ((cmdError_put32_eq_none_iff _ _ _).1 h)

/-- A command raises the error of its checks or makes its writes. -/
theorem exec_cases_writes (h : exec i s = .next t) :
    (∃ e, t = raiseCmdError e s) ∨ t = completeCmd (commandWrites i s) := by
  cases hc : cmdError s.params (operands s) i with
  | some e => exact .inl ⟨e, Host.Outcome.next.inj (h.symm.trans (exec_of_cmdError hc))⟩
  | none => exact .inr (Host.Outcome.next.inj (h.symm.trans (exec_eq_commandWrites hc)))

/-- Settles O23: an error writes `STATUS` alone; otherwise `commandWrites` lists the registers. -/
theorem commandsWriteOnlyTheirRegisters : Obligations.CommandsWriteOnlyTheirRegisters := by
  intro i s t h
  obtain ⟨e, rfl⟩ | rfl := exec_cases_writes h
  · simp
  · cases i with
    | writeRecord adv => cases adv <;> simp [commandWrites, advanceOffset]
    | put32 adv => cases adv <;> simp [commandWrites, advanceOffset]
    | _ => simp [commandWrites]

/-- Settles O47: a range that is written costs no draw. -/
theorem preparedCommandsDrawNothing : Obligations.PreparedCommandsDrawNothing := by
  intro i s t hp h
  obtain ⟨e, rfl⟩ | rfl := exec_cases_writes h
  · rfl
  · cases i with
    | crcFeed | checksum | writeRecord adv => exact congrArg Prod.snd (readRange_prepared hp s.draws)
    | _ => rfl

/-! ### The fields of a record and of `PUT32` -/

theorem be32_eq_shifts (v : Word) :
    be32 v = [(v >>> 24).setWidth 8, (v >>> 16).setWidth 8, (v >>> 8).setWidth 8, v.setWidth 8] := by
  refine List.ext_getElem? fun k => ?_
  by_cases hk : k < 4
  · rw [be32_getElem? v hk]
    interval_cases k <;> simp
  · rw [List.getElem?_eq_none (by simpa using hk), List.getElem?_eq_none (by simpa using hk)]

theorem payloadStart_eq (x : Operands) : payloadStart x = if x.s = x.o + 8 then x.o + 8 else x.s := by
  simp [payloadStart, payloadInPlace]

/-- The bytes of `BUF` after a record is written, in ascending order of offsets, both fields big-endian (R42, R75). -/
theorem get_writeRecordBytes_ascending (m : Memory) {x : Operands} {payload : List Byte} (hp : payload.length = x.n)
    (sum : Word) (a : Nat) :
    (writeRecordBytes m x payload sum).get a =
      if a < x.o then m.get a
      else if a < x.o + 4 then some ((x.length >>> (8 * (3 - (a - x.o)))).setWidth 8)
      else if a < x.o + 8 then some ((x.tag >>> (8 * (3 - (a - (x.o + 4))))).setWidth 8)
      else if a < x.o + 8 + x.n then payload[a - (x.o + 8)]?
      else if a < x.o + 12 + x.n then some ((sum >>> (8 * (3 - (a - (x.o + 8 + x.n))))).setWidth 8)
      else m.get a := by
  split_ifs with hbefore hlength htag hpayload hsum
  · exact get_writeRecordBytes_outside m hp sum (.inl hbefore)
  · obtain ⟨k, rfl⟩ := Nat.exists_eq_add_of_le (Nat.le_of_not_lt hbefore)
    rw [get_writeRecordBytes_length m hp sum (by omega), be32_getElem? _ (by omega), Nat.add_sub_cancel_left]
  · obtain ⟨k, rfl⟩ := Nat.exists_eq_add_of_le (Nat.le_of_not_lt hlength)
    rw [get_writeRecordBytes_tag m hp sum (by omega), be32_getElem? _ (by omega), Nat.add_sub_cancel_left]
  · obtain ⟨k, rfl⟩ := Nat.exists_eq_add_of_le (Nat.le_of_not_lt htag)
    rw [get_writeRecordBytes_payload m hp sum (by omega), Nat.add_sub_cancel_left]
  · obtain ⟨k, rfl⟩ := Nat.exists_eq_add_of_le (Nat.le_of_not_lt hpayload)
    rw [get_writeRecordBytes_sum m hp sum (by omega), be32_getElem? _ (by omega), Nat.add_sub_cancel_left]
  · refine get_writeRecordBytes_outside m hp sum (.inr ?_)
    rw [recordEnd, Config.recordFraming]
    omega

/-- Settles O14: the state left is `withRecord`. -/
theorem writeRecordWritesTheRecord : Obligations.WriteRecordWritesTheRecord := by
  intro adv s hlegal x o n src hfits hsource
  have hchecks : recordError s.params x = none := (recordError_eq_none_iff _ _).2 ⟨hfits, hsource⟩
  refine ⟨(payloadRead s).1, withRecord adv s, payloadRead_length s, fun k b hk hb => ?payload,
    exec_writeRecord_of_noError hchecks, get_writeRecordBytes_ascending _ (payloadRead_length s) _, ?sum,
    toNat_recordEnd hlegal hchecks, rfl⟩
  case payload =>
    refine readRange_written _ _ _ _ hk ?_
    rw [payloadStart_eq]
    exact hb
  case sum =>
    rw [← be32_eq_shifts]
    rfl

/-- Settles O15: the field is a range write of four bytes. -/
theorem put32WritesTheField : Obligations.Put32WritesTheField := by
  intro adv s hlegal x o hfits
  have hchecks : cmdError s.params (operands s) (.put32 adv) = none :=
    (cmdError_put32_eq_none_iff _ _ _).2 (decide_eq_false (Nat.not_lt.2 hfits))
  have hmax : s.params.bufSize ≤ 2 ^ 31 := hlegal.2
  refine ⟨_, exec_eq_commandWrites hchecks, fun a => ?field, toNat_word_ofNat (n := o + 4) (by omega), rfl⟩
  case field =>
    refine (Memory.get_writeRange s.buf o (be32 x.data) a).trans ?_
    rw [be32_length]
    split_ifs with hin
    · exact be32_getElem? x.data (by omega)
    · rfl

/-- Settles O50: `Memory.eq_of_get_eq`, whose canonical lists are determined by their members. -/
theorem equalBytesAreEqualBuffers : Obligations.EqualBytesAreEqualBuffers :=
  fun _ _ => Memory.eq_of_get_eq

/-! ### Chains of records (R82) -/

/-- No command ends a pending error (R96). -/
theorem err_of_exec (he : s.status.err = true) (h : exec i s = .next t) : t.status.err = true := by
  obtain ⟨e, rfl⟩ | ⟨u, rfl, hframe, -, -⟩ := exec_cases h
  · rfl
  · rw [completeCmd_status, Status.completed_err, hframe.status, he]

/-- The operands a host sets up for a record of a chain. -/
def RecordArgs.setUp (r : RecordArgs) (s : State) : State := { s with tag := r.tag, src := r.src, length := r.length }

theorem writeChain_cons {r : RecordArgs} {rest : List RecordArgs} (h : writeChain (r :: rest) s = .next t) :
    ∃ u, exec (.writeRecord true) (r.setUp s) = .next u ∧ writeChain rest u = .next t := by
  unfold writeChain at h
  split at h
  · exact ⟨_, ‹_›, h⟩
  · cases h
  · cases h

theorem err_of_writeChain {records : List RecordArgs} (he : s.status.err = true)
    (h : writeChain records s = .next t) : t.status.err = true := by
  induction records generalizing s with
  | nil =>
    obtain rfl := Host.Outcome.next.inj h
    exact he
  | cons r rest ih =>
    obtain ⟨u, hu, hrest⟩ := writeChain_cons h
    exact ih (err_of_exec (s := r.setUp s) he hu) hrest

/-- A `WRITE_RECORD.ADV` without error moves `OFFSET` past its record, and leaves CRM ready for the next one. -/
theorem exec_writeRecord_adv (hlegal : s.params.legal) (hidle : s.inFlight = none)
    (h : exec (.writeRecord true) s = .next t) (ht : t.status.err = false) :
    t.params = s.params ∧ t.inFlight = none ∧ t.offset.toNat = s.offset.toNat + 12 + s.length.toNat := by
  obtain ⟨hchecks, rfl⟩ := eq_withRecord_of_exec h ht
  have hnext := toNat_recordEnd hlegal hchecks
  rw [operands_of_idle hidle] at hnext
  refine ⟨rfl, rfl, ?_⟩
  rw [withRecord_offset, if_pos rfl, withRecord_next, operands_of_idle hidle]
  exact hnext

/-- Settles O49: no record of the chain ends with an error, because none ends one, so each moves `OFFSET` by its own
bytes. -/
theorem chainedRecordsLieEndToEnd : Obligations.ChainedRecordsLieEndToEnd := by
  intro records s t hlegal hidle hnoErr h ht
  induction records generalizing s with
  | nil =>
    obtain rfl := Host.Outcome.next.inj h
    rfl
  | cons r rest ih =>
    obtain ⟨u, hu, hrest⟩ := writeChain_cons h
    have huNoErr : u.status.err = false :=
      Bool.eq_false_of_not_eq_true fun he => by simp [err_of_writeChain he hrest] at ht
    obtain ⟨hparams, huIdle, hoffset⟩ := exec_writeRecord_adv (s := r.setUp s) hlegal hidle hu huNoErr
    calc t.offset.toNat
        = u.offset.toNat + chainBytes rest := ih u (hparams ▸ hlegal) huIdle huNoErr hrest
      _ = s.offset.toNat + 12 + r.length.toNat + chainBytes rest := by rw [hoffset]; rfl
      _ = s.offset.toNat + chainBytes (r :: rest) := by rw [chainBytes, Config.recordFraming]; omega

end Sys2Proof.Machine
end

section
/-! PROOFS. The register window and single transfers (10_state.md R14, R17 to R28; 20_memory.md R47;
60_exceptions.md R95, R97). -/

namespace Sys2Proof.Machine

variable {s : State}

/-! ### Word transfers at a register's offset (R37) -/

theorem completeTransfer_writeReg (r : Reg) (v : Word) (s : State) :
    completeTransfer ⟨true, r.addr, .word, v⟩ s = { writeReg r v s with port := some ⟨none, false⟩ } :=
  completeTransfer_regWrite (target_reg s.params true r v) rfl

theorem completeTransfer_readReg (r : Reg) (v : Word) (s : State) :
    completeTransfer ⟨false, r.addr, .word, v⟩ s = { s with port := some ⟨some (readReg r s), false⟩ } :=
  completeTransfer_regRead (target_reg s.params false r v) rfl

/-- The registers a host write stores into as they are (R18 to R23). -/
def Reg.operands : List Reg := [.offset, .length, .src, .tag, .data, .crcAcc]

theorem readReg_withPort (r : Reg) (s : State) (port : Option Completion) :
    readReg r { s with port := port } = readReg r s := by
  cases r <;> rfl

theorem readReg_writeReg_same {r : Reg} (h : r ∈ Reg.operands) (v : Word) (s : State) :
    readReg r (writeReg r v s) = v := by
  cases r with
  | cmd | status | result | next => simp [Reg.operands] at h
  | _ => rfl

theorem readReg_writeReg_of_ne {r r' : Reg} (h : r ∈ Reg.operands) (hne : r' ≠ r) (v : Word) (s : State) :
    readReg r' (writeReg r v s) = readReg r' s := by
  cases r with
  | cmd | status | result | next => simp [Reg.operands] at h
  | _ => cases r' <;> simp [readReg, writeReg] at hne ⊢

theorem writeReg_keeps_buf_inFlight {r : Reg} (h : r ∈ Reg.operands) (v : Word) (s : State) :
    (writeReg r v s).buf = s.buf ∧ (writeReg r v s).inFlight = s.inFlight := by
  cases r with
  | cmd | status | result | next => simp [Reg.operands] at h
  | _ => exact ⟨rfl, rfl⟩

/-- Settles O28: a word transfer at a register's offset is `writeReg` or `readReg` of it. -/
theorem registersReadBackWhatIsStored : Obligations.RegistersReadBackWhatIsStored := by
  intro r r' v s t back
  have ht : t = { writeReg r v s with port := some ⟨none, false⟩ } := completeTransfer_writeReg r v s
  have hback (q : Reg) (u : State) : back q u = some ⟨some (readReg q u), false⟩ :=
    congrArg State.port (completeTransfer_readReg q 0#32 u)
  refine ⟨fun hr => ⟨?same, fun hne => ?other, ?buf, ?flight⟩, ?ignored, hback .cmd s, rfl, ?written, ?reads⟩
  case same => rw [hback, ht, readReg_withPort, readReg_writeReg_same hr]
  case other => rw [hback, hback, ht, readReg_withPort, readReg_writeReg_of_ne hr hne]
  case buf => rw [ht, (writeReg_keeps_buf_inFlight hr v s).1]
  case flight => rw [ht, (writeReg_keeps_buf_inFlight hr v s).2]
  case ignored =>
    rintro (rfl | rfl)
    · exact completeTransfer_writeReg .result v s
    · exact completeTransfer_writeReg .next v s
  case written =>
    exact ⟨completeTransfer_writeReg .offset v s, completeTransfer_writeReg .length v s,
      completeTransfer_writeReg .src v s, completeTransfer_writeReg .tag v s, completeTransfer_writeReg .data v s,
      completeTransfer_writeReg .crcAcc v s, completeTransfer_writeReg .result v s,
      completeTransfer_writeReg .next v s⟩
  case reads =>
    exact ⟨completeTransfer_readReg .cmd v s, completeTransfer_readReg .offset v s,
      completeTransfer_readReg .length v s, completeTransfer_readReg .src v s, completeTransfer_readReg .tag v s,
      completeTransfer_readReg .data v s, completeTransfer_readReg .crcAcc v s, completeTransfer_readReg .result v s,
      completeTransfer_readReg .next v s⟩

/-! ### Reads (R14, R27, R47) -/

/-- Settles O29: of the effects of a transfer, all but `nothing` are a write's. -/
theorem readsHaveNoSideEffect : Obligations.ReadsHaveNoSideEffect := by
  intro tr s hread
  obtain ⟨p, u, hu, heffect⟩ := completeTransfer_cases tr s
  cases heffect with
  | nothing d => exact ⟨d, some p, hu⟩
  | accept _ _ hw | status hw | operand _ _ _ _ _ _ hw | cell _ _ _ hw => simp [hread] at hw

/-- Settles O27: the cell has no byte, so each read draws one. -/
theorem unwrittenCellIsDrawnAtEachRead : Obligations.UnwrittenCellIsDrawnAtEachRead := by
  intro s i hi hlegal hnone rd
  have hread (u : State) (hp : u.params = s.params) (hb : u.buf.get i = none) : completeTransfer rd u =
      { u with draws := u.draws + 1, port := some ⟨some (0#24 ++ Config.freeByte u.draws), false⟩ } := by
    have ht : target u.params rd = .cell i := target_of_cell rfl (cellAddr_toNat hlegal hi) (hp ▸ hi)
    rw [completeTransfer_cellRead ht rfl, readCell_unwritten hb, byte_setWidth_eq_zero_append]
  refine ⟨hread s rfl hnone, ?again⟩
  case again =>
    rw [hread s rfl hnone, hread]
    exacts [rfl, hnone]

/-- Settles O30: the fields of `STATUS` are laid end to end. -/
theorem statusWordLayout : Obligations.StatusWordLayout := by
  intro s
  refine ⟨s.status.word, congrArg State.port (completeTransfer_statusRead s 0#32), ?busy, ?done, ?err, ?bit3,
    ?errcode, ?high⟩
  case busy | done | err | bit3 =>
    simp only [Status.word, BitVec.getLsbD_append]
    simp
  case errcode =>
    rw [Status.word, BitVec.extractLsb'_append_eq_of_le (by decide), BitVec.extractLsb'_append_eq_of_le (by decide),
      BitVec.extractLsb'_append_eq_of_le (by decide), BitVec.extractLsb'_append_eq_of_le (by decide),
      BitVec.extractLsb'_append_eq_right]
  case high =>
    rw [Status.word, BitVec.extractLsb'_append_eq_of_le (by decide), BitVec.extractLsb'_append_eq_of_le (by decide),
      BitVec.extractLsb'_append_eq_of_le (by decide), BitVec.extractLsb'_append_eq_of_le (by decide),
      BitVec.extractLsb'_append_eq_left]

/-! ### `CMD` and `STATUS` writes (R95, R97) -/

theorem completeTransfer_cmdWrite (s : State) (w : Word) :
    completeTransfer ⟨true, 0x00#32, .word, w⟩ s = { acceptCmd w s with port := some ⟨none, false⟩ } :=
  completeTransfer_writeReg .cmd w s

theorem Status.accepted_of_noErr {st : Status} (h : st.err = false) :
    st.accepted = ⟨true, false, false, st.errcode⟩ := by
  rw [accepted, h]

/-- Settles O32: a `CMD` write is no `STATUS` read, and it is `acceptCmd`. -/
theorem commandIsAcceptedOrDiscarded : Obligations.CommandIsAcceptedOrDiscarded := by
  intro s w tr
  refine ⟨by simp [held, Transfer.isStatusRead, tr], fun he => ?discarded, fun hok => ?accepted⟩
  case discarded => rw [completeTransfer_cmdWrite, acceptCmd_of_err he]
  case accepted =>
    refine ⟨s.lat.headD 0, s.lat.tail, ?_⟩
    rw [completeTransfer_cmdWrite, acceptCmd_of_noErr hok, launchCmd, Status.accepted_of_noErr hok]
    rfl

/-- Settles O22: the `STATUS` write leaves `ERR = 0`, so the `CMD` write is accepted. -/
theorem returnFromAnError : Obligations.ReturnFromAnError := by
  intro s v w hv cleared
  have hcleared : cleared = { s with
      status := ⟨s.status.busy, s.status.done && !v.getLsbD 1, false, 0#4⟩, port := some ⟨none, false⟩ } := by
    refine (completeTransfer_statusWrite s v).trans ?_
    simp [writeStatus, Status.hostWrite, hv]
  refine ⟨hcleared, s.lat.headD 0, ?_⟩
  rw [completeTransfer_cmdWrite, hcleared, acceptCmd_of_noErr rfl]
  rfl

end Sys2Proof.Machine
end

section
/-! PROOFS. Host scripts: their labels and the expansions of the pseudo-instructions (30_encoding.md R64, R65). -/

namespace Sys2Proof.Machine

variable {fresh : Label} {src : List SourceLine} {out : List ScriptLine}

/-! ### Labels -/

theorem mem_definedLabels_iff {l : Label} {script : List ScriptLine} :
    l ∈ definedLabels script ↔ .label l ∈ script := by
  induction script with
  | nil => simp [definedLabels]
  | cons line rest ih => cases line <;> simp [definedLabels, ih]

theorem mem_usedLabels_of_bnz {mask : Word} {l : Label} {script : List ScriptLine} (h : .bnz mask l ∈ script) :
    l ∈ usedLabels script := by
  obtain ⟨before, after, rfl⟩ := List.append_of_mem h
  simp [usedLabels]

theorem labelsResolve_iff {script : List ScriptLine} :
    labelsResolve script = true ↔ ∀ l ∈ usedLabels script, l ∈ definedLabels script := by
  simp [labelsResolve, findLabel_isSome_iff]

theorem scriptWellFormed_iff {script : List ScriptLine} :
    scriptWellFormed script = true ↔
      (∀ l ∈ usedLabels script, l ∈ definedLabels script) ∧ (definedLabels script).Nodup := by
  simp [scriptWellFormed, labelsResolve_iff]

theorem lt_freshAbove {l : Label} {ls : List Label} (h : l ∈ ls) : l < freshAbove ls := by
  induction ls with
  | nil => cases h
  | cons q rest ih =>
    change l < max (q + 1) (freshAbove rest)
    rcases List.mem_cons.1 h with rfl | hrest
    · exact lt_max_of_lt_left (Nat.lt_succ_self l)
    · exact lt_max_of_lt_right (ih hrest)

/-! ### The expansion of one pseudo-instruction -/

/-- Settles O54: the fixed expansions by evaluation, `W8S` by the laws of `expandW8s`. -/
theorem pseudoInstructionsExpand : Obligations.PseudoInstructionsExpand := by
  intro fresh o n v tag src i bytes
  refine ⟨rfl, rfl, rfl, rfl, rfl, rfl, rfl, fun hfits => ?fits, expandW8s_eq_none i.isLt.le⟩
  case fits =>
    obtain ⟨lines, hlines, hlen, hget⟩ := expandW8s_of_fits hfits
    refine ⟨lines, hlines, hlen, fun k b hk => ⟨BitVec.ofNat 31 (i.toNat + k), ?_, hget k b hk⟩⟩
    have hlt : k < bytes.length := (List.getElem?_eq_some_iff.1 hk).1
    rw [BitVec.toNat_ofNat, Nat.mod_eq_of_lt (by omega)]

/-- The labels a pseudo-instruction brings into a script: the fresh one of a `WAIT`. -/
def Pseudo.freshLabels (fresh : Label) : Pseudo → List Label
  | .wait => [fresh]
  | _ => []

theorem Pseudo.labels_expand {p : Pseudo} {lines : List ScriptLine} (h : p.expand fresh = some lines) :
    definedLabels lines = p.freshLabels fresh ∧ usedLabels lines = p.freshLabels fresh := by
  cases p with
  | w8s i bytes => exact expandW8s_labels h
  | _ =>
    obtain rfl := Option.some.inj h
    exact ⟨rfl, rfl⟩

theorem Pseudo.isSome_expand_iff {p : Pseudo} :
    (p.expand fresh).isSome = true ↔ ∀ i bytes, p = .w8s i bytes → i.toNat + bytes.length ≤ 2 ^ 31 := by
  cases p with
  | w8s i bytes =>
    simp only [w8s.injEq, and_imp, forall_eq', forall_apply_eq_imp_iff]
    constructor
    · intro h
      by_contra hreaches
      have hnone : expandW8s i.toNat bytes = none := expandW8s_eq_none i.isLt.le (not_le.1 hreaches)
      simp [expand, hnone] at h
    · intro hfits
      obtain ⟨lines, hlines, -⟩ := expandW8s_of_fits hfits
      simp [expand, hlines]
  | _ => simp [expand]

/-! ### The expansion of a script -/

/-- The fresh labels an expansion takes from `fresh` on, one for each `WAIT`. -/
def freshLabelsFrom (fresh : Label) : List SourceLine → List Label
  | [] => []
  | .line _ :: rest => freshLabelsFrom fresh rest
  | .pseudo p :: rest => p.freshLabels fresh ++ freshLabelsFrom (fresh + 1) rest

theorem Pseudo.eq_of_mem_freshLabels {p : Pseudo} {l : Label} (h : l ∈ p.freshLabels fresh) : l = fresh := by
  cases p <;> simp_all [freshLabels]

theorem le_of_mem_freshLabelsFrom {l : Label} (h : l ∈ freshLabelsFrom fresh src) : fresh ≤ l := by
  induction src generalizing fresh with
  | nil => cases h
  | cons sl rest ih =>
    cases sl with
    | line _ => exact ih h
    | pseudo p =>
      rcases List.mem_append.1 h with hp | hrest
      · exact (Pseudo.eq_of_mem_freshLabels hp).ge
      · exact (Nat.le_succ fresh).trans (ih hrest)

theorem nodup_freshLabelsFrom : (freshLabelsFrom fresh src).Nodup := by
  induction src generalizing fresh with
  | nil => exact List.nodup_nil
  | cons sl rest ih =>
    cases sl with
    | line _ => exact ih
    | pseudo p =>
      refine List.Nodup.append ?own ih fun l hp hrest => ?apart
      case own => cases p <;> simp [Pseudo.freshLabels]
      case apart =>
        obtain rfl := Pseudo.eq_of_mem_freshLabels hp
        exact Nat.not_succ_le_self l (le_of_mem_freshLabelsFrom hrest)

/-- A function on scripts that reads each line's labels apart from the rest, as `definedLabels` and `usedLabels` do. -/
theorem labels_expandFrom {labels : List ScriptLine → List Label} (hnil : labels [] = [])
    (happend : ∀ a b, labels (a ++ b) = labels a ++ labels b)
    (hpseudo : ∀ (fresh : Label) (p : Pseudo) lines, p.expand fresh = some lines → labels lines = p.freshLabels fresh)
    (h : expandFrom fresh src = some out) :
    (labels out).Perm (labels (plainLines src) ++ freshLabelsFrom fresh src) := by
  induction src generalizing fresh out with
  | nil =>
    obtain rfl := Option.some.inj h
    simp [plainLines, freshLabelsFrom, hnil]
  | cons sl rest ih =>
    cases sl with
    | line line =>
      obtain ⟨lines, hlines, rfl⟩ := Option.map_eq_some_iff.1 h
      rw [plainLines, ← List.singleton_append, ← List.singleton_append (l := plainLines rest), happend, happend,
        List.append_assoc]
      exact (ih hlines).append_left _
    | pseudo p =>
      obtain ⟨first, hfirst, hrest⟩ := Option.bind_eq_some_iff.1 h
      obtain ⟨lines, hlines, rfl⟩ := Option.map_eq_some_iff.1 hrest
      rw [happend, hpseudo _ _ _ hfirst]
      exact ((ih hlines).append_left _).trans (List.perm_append_comm_assoc _ _ _)

theorem definedLabels_expandFrom (h : expandFrom fresh src = some out) :
    (definedLabels out).Perm (definedLabels (plainLines src) ++ freshLabelsFrom fresh src) :=
  labels_expandFrom rfl definedLabels_append (fun _ _ _ hp => (Pseudo.labels_expand hp).1) h

theorem usedLabels_expandFrom (h : expandFrom fresh src = some out) :
    (usedLabels out).Perm (usedLabels (plainLines src) ++ freshLabelsFrom fresh src) :=
  labels_expandFrom rfl usedLabels_append (fun _ _ _ hp => (Pseudo.labels_expand hp).2) h

/-- Fresh labels above the author's own keep a script well formed: each is defined once, where it is used. -/
theorem scriptWellFormed_expandFrom (hsrc : scriptWellFormed (plainLines src) = true)
    (hfresh : ∀ l ∈ definedLabels (plainLines src), l < fresh) (h : expandFrom fresh src = some out) :
    scriptWellFormed out = true := by
  obtain ⟨hresolve, hnodup⟩ := scriptWellFormed_iff.1 hsrc
  have hdefined := definedLabels_expandFrom h
  refine scriptWellFormed_iff.2 ⟨fun l hl => ?resolve, hdefined.nodup_iff.2 ?nodup⟩
  case resolve =>
    rw [hdefined.mem_iff, List.mem_append]
    rw [(usedLabels_expandFrom h).mem_iff, List.mem_append] at hl
    exact hl.imp_left (hresolve l)
  case nodup =>
    refine List.Nodup.append hnodup nodup_freshLabelsFrom fun l hplain hnew => ?_
    exact absurd (hfresh l hplain) (not_lt.2 (le_of_mem_freshLabelsFrom hnew))

theorem isSome_expandFrom_iff :
    (expandFrom fresh src).isSome = true ↔
      ∀ i bytes, .pseudo (.w8s i bytes) ∈ src → i.toNat + bytes.length ≤ 2 ^ 31 := by
  induction src generalizing fresh with
  | nil => simp [expandFrom]
  | cons sl rest ih =>
    cases sl with
    | line line => simp [expandFrom, ih]
    | pseudo p =>
      have hboth : (expandFrom fresh (.pseudo p :: rest)).isSome = true ↔
          (p.expand fresh).isSome = true ∧ (expandFrom (fresh + 1) rest).isSome = true := by
        cases hp : p.expand fresh <;> simp [expandFrom, hp]
      rw [hboth, Pseudo.isSome_expand_iff, ih]
      simp only [List.mem_cons, SourceLine.pseudo.injEq, or_imp, forall_and, eq_comm]

/-- Settles O55: the labels of the expansion are the author's and the fresh ones, and only a `W8S` can lack an
expansion. -/
theorem expandedScriptsStayWellFormed : Obligations.ExpandedScriptsStayWellFormed :=
  fun _ => ⟨fun _ hsrc h => scriptWellFormed_expandFrom hsrc
    (fun _ hl => lt_freshAbove (List.mem_append_left _ hl)) h, isSome_expandFrom_iff⟩

end Sys2Proof.Machine
end

section
/-! PROOFS. Steps: the engine's (60_exceptions.md R95), the host's while CRM is idle and while a command waits
(30_encoding.md R64; 70_reset_and_hazards.md R113 to R115), that none stops a well-formed script, and the reset edge
during a command (R110). -/

namespace Sys2Proof.Machine

variable {s t : State} {c : InFlight} {i : Instr} {tr : Transfer}

/-! ### The engine's step (R95) -/

theorem engineMove_command (hd : decode c.word = .command i) : engineMove c s = exec i s := by
  simp [engineMove, hd]

/-- Settles O33: the state in which the port is cleared and the sample taken is `beginStep s`. -/
theorem stepRunsTheDecodedCommand : Obligations.StepRunsTheDecodedCommand := by
  intro s c i hr hf hw hd
  exact (step_engine (resetNow_eq_false hr) hf hw).trans (engineMove_command hd)

/-- Every command has a next state (R88). -/
theorem exec_answers (i : Instr) (s : State) : ∃ t, exec i s = .next t := by
  cases hc : cmdError s.params (operands s) i with
  | some e => exact ⟨_, exec_of_cmdError hc⟩
  | none => exact ⟨_, exec_eq_commandWrites hc⟩

theorem engineMove_answers (c : InFlight) (s : State) : ∃ t, engineMove c s = .next t := by
  cases hd : decode c.word with
  | command i =>
    rw [engineMove_command hd]
    exact exec_answers i s
  | illegal why => exact ⟨_, engineMove_illegal hd⟩

theorem engineMove_completes (h : engineMove c s = .next t) :
    t.inFlight = none ∧ t.status.busy = false ∧ t.status.done = true := by
  obtain ⟨e, rfl⟩ | ⟨u, rfl, -, -, -⟩ := engineMove_cases h <;> exact ⟨rfl, rfl, rfl⟩

/-! ### The host's step, idle or while a command waits -/

/-- The state in which the host moves: no completion yet, the sample of `rst_n` taken, and one move less to wait. -/
def hostTurn (s : State) : State :=
  { s with
    inFlight := s.inFlight.map (fun c => { c with wait := c.wait - 1 })
    rstN := s.rstN.tail
    port := none }

theorem step_hostTurn (hr : s.rstN.head? ≠ some false) (hwaits : ∀ c, s.inFlight = some c → 0 < c.wait) :
    step s = hostMove (hostTurn s) := by
  cases hf : s.inFlight with
  | none => rw [step_idle (resetNow_eq_false hr) hf, hostTurn, hf, Option.map_none, ← hf, beginStep]
  | some c =>
    obtain ⟨k, hk⟩ := Nat.exists_eq_succ_of_ne_zero (hwaits c hf).ne'
    rw [step_wait (resetNow_eq_false hr) hf hk, hostTurn, hf, Option.map_some, hk]
    rfl

theorem step_hostTurn_of_idle (hr : s.rstN.head? ≠ some false) (hf : s.inFlight = none) :
    step s = hostMove (hostTurn s) :=
  step_hostTurn hr (by simp [hf])

theorem step_hostTurn_of_wait {k : Nat} (hr : s.rstN.head? ≠ some false) (hf : s.inFlight = some c)
    (hw : c.wait = k + 1) : step s = hostMove (hostTurn s) :=
  step_hostTurn hr (by simp [hf, hw])

theorem hostTurn_of_idle (hf : s.inFlight = none) : hostTurn s = { s with rstN := s.rstN.tail, port := none } := by
  rw [hostTurn, hf, Option.map_none]

theorem hostTurn_of_wait {k : Nat} (hf : s.inFlight = some c) (hw : c.wait = k + 1) :
    hostTurn s = { s with inFlight := some { c with wait := k }, rstN := s.rstN.tail, port := none } := by
  rw [hostTurn, hf, Option.map_some, hw, Nat.add_sub_cancel]

/-- A host whose script has ended does nothing. -/
theorem hostMove_ended (hline : currentLine s = none) : hostMove s = .next s := by
  simp [hostMove, hline]

/-- Settles O53: the host has no line and the engine no command. -/
theorem finishedRunStays : Obligations.FinishedRunStays := by
  intro s hs hfinished hrst
  obtain ⟨hline, hbusy⟩ := hfinished
  have hidle := hs.idle hbusy
  rw [step_hostTurn_of_idle (by simp [hrst]) hidle, hostTurn_of_idle hidle, hrst]
  exact hostMove_ended hline

/-- Settles O51: the host's own lines move the host alone, from `hostTurn`. -/
theorem branchFollowsTheLastRead : Obligations.BranchFollowsTheLastRead := by
  intro s hr hwaits goes
  rw [step_hostTurn hr hwaits]
  refine ⟨fun l hline => hostMove_label hline, fun mask l hline => ?_⟩
  rw [hostMove_bnz (s := hostTurn s) hline]
  exact ⟨fun hclear => hostBranch_of_clear (s := hostTurn s) hclear l,
    fun hset hdef => hostBranch_of_set (s := hostTurn s) hset hdef,
    fun hset hundef => hostBranch_undefined (s := hostTurn s) hset hundef⟩

/-! ### Transfers (R64) -/

theorem Transfer.isRegRead_iff (tr : Transfer) : tr.isRegRead = true ↔
    tr.we = false ∧ tr.size = .word ∧ tr.addr.toNat % 4 = 0 ∧ tr.addr.toNat ≤ 0x24 := by
  simp only [isRegRead, Bool.and_eq_true, Bool.not_eq_true', beq_iff_eq, and_assoc]
  refine and_congr_right fun _ => and_congr_right fun hsize => ⟨fun h => ?_, fun ⟨halign, hlast⟩ => ?_⟩
  · obtain ⟨r, hr⟩ := Option.isSome_iff_exists.1 h
    rw [← regAt_addr hr]
    cases r <;> decide
  · obtain ⟨r, hr⟩ := target_of_register (p := ⟨0⟩) hsize halign hlast
    rw [(target_eq_reg hr).2, regAt_reg, Option.isSome_some]

/-- A read of a register completes with the value the host keeps as its last `R32`. -/
theorem port_of_isRegRead (h : tr.isRegRead = true) (s : State) :
    (completeTransfer tr s).port = some ⟨some (lastRead tr (completeTransfer tr s)), false⟩ := by
  obtain ⟨hwe, hsize, halign, hlast⟩ := tr.isRegRead_iff.1 h
  obtain ⟨r, hr⟩ := target_of_register (p := s.params) hsize halign hlast
  simp [lastRead, h, completeTransfer_regRead hr hwe]

/-- Every other transfer keeps the value of the last `R32`. -/
theorem lastRead_of_not_isRegRead (h : tr.isRegRead = false) (s : State) :
    lastRead tr (completeTransfer tr s) = s.host.lastR32 := by
  simp [lastRead, h]

theorem isRegRead_of_write (h : tr.we = true) : tr.isRegRead = false := by
  simp [Transfer.isRegRead, h]

theorem isRegRead_of_byte (h : tr.size = .byte) : tr.isRegRead = false := by
  simp [Transfer.isRegRead, h]

theorem cellAddr_eq {a : Word} {i : BitVec 31} (h : a.toNat = 0x80000000 + i.toNat) : cellAddr i = a :=
  BitVec.eq_of_toNat_eq (by rw [cellAddr, Config.bufBase, toNat_word_ofNat (by omega), h])

/-- A host move at a line that is a transfer, with no command in flight. -/
theorem hostMove_free {line : ScriptLine} (hline : currentLine s = some line) (hact : line.act = .transfer tr)
    (hbusy : s.status.busy = false) :
    hostMove s = .next { completeTransfer tr s with
      host := { s.host with line := s.host.line + 1, lastR32 := lastRead tr (completeTransfer tr s) } } := by
  rw [hostMove_transfer hline hact, hostTransfer_of_free (by simp [held, hbusy])]

/-- Settles O52: the encoding the statement gives a line is its `act`, and whether the line is an `R32` is
`Transfer.isRegRead`. -/
theorem scriptLinesDriveThePort : Obligations.ScriptLinesDriveThePort := by
  intro s line tr hidle hbusy hr hline hencoding u readsRegister
  have hmove (hact : line.act = .transfer tr) : step s = .next { u with
      host := { s.host with line := s.host.line + 1, lastR32 := lastRead tr u } } := by
    rw [step_hostTurn_of_idle hr hidle, hostTurn_of_idle hidle]
    exact hostMove_free hline hact hbusy
  have hkeeps (hnot : tr.isRegRead = false) : lastRead tr u = s.host.lastR32 := lastRead_of_not_isRegRead hnot _
  cases line with
  | w32 r v =>
    obtain rfl := hencoding
    exact ⟨_, hmove rfl, hkeeps (isRegRead_of_write rfl)⟩
  | r32 r stated =>
    obtain rfl := hencoding
    exact ⟨_, hmove rfl, port_of_isRegRead (by simp [Transfer.isRegRead]) _⟩
  | w8 i b =>
    obtain ⟨hwe, haddr, hsize, hwdata⟩ := hencoding
    obtain ⟨we, addr, size, wdata⟩ := tr
    subst hwe hsize hwdata
    exact ⟨_, hmove (by rw [ScriptLine.act, cellAddr_eq haddr, byte_setWidth_eq_zero_append]),
      hkeeps (isRegRead_of_write rfl)⟩
  | r8 i stated =>
    obtain ⟨hwe, haddr, hsize, hwdata⟩ := hencoding
    obtain ⟨we, addr, size, wdata⟩ := tr
    subst hwe hsize hwdata
    exact ⟨_, hmove (by rw [ScriptLine.act, cellAddr_eq haddr]), hkeeps (isRegRead_of_byte rfl)⟩
  | cmd i =>
    obtain rfl := hencoding
    exact ⟨_, hmove rfl, hkeeps (isRegRead_of_write rfl)⟩
  | xfer x =>
    obtain rfl := hencoding
    refine ⟨_, hmove rfl, fun hread => port_of_isRegRead (tr.isRegRead_iff.2 hread) _, fun hnot => hkeeps ?_⟩
    exact Bool.eq_false_of_not_eq_true fun h => hnot (tr.isRegRead_iff.1 h)
  | label l => exact hencoding.elim
  | bnz mask l => exact hencoding.elim

/-! ### While a command waits (R113 to R115) -/

theorem Transfer.isStatusRead_iff (tr : Transfer) :
    tr.isStatusRead = true ↔ tr.we = false ∧ tr.size = .word ∧ tr.addr = 0x04#32 := by
  simp [isStatusRead, Reg.addr, and_assoc]

theorem held_of_busy (hb : s.status.busy = true) (tr : Transfer) : held tr s = !tr.isStatusRead := by
  rw [held, hb, Bool.true_and]

/-- `STATUS` while a command is in flight (R27, R30). -/
theorem Consistent.status_of_flight (hs : Consistent s) (hf : s.inFlight = some c) :
    s.status = ⟨true, false, false, 0#4⟩ := by
  have hbusy := hs.busy hf
  obtain ⟨-, -, -, hcode, hflags, -, -⟩ := hs
  obtain ⟨hdone, herr⟩ := hflags hbusy
  have herrcode : s.status.errcode = 0#4 := by simpa [Status.codeLegal, herr] using hcode
  calc s.status
    _ = ⟨s.status.busy, s.status.done, s.status.err, s.status.errcode⟩ := rfl
    _ = ⟨true, false, false, 0#4⟩ := by rw [hbusy, hdone, herr, herrcode]

/-- Settles O34: in `hostTurn` a `STATUS` read completes and every other transfer is held. -/
theorem busyHoldsAllButStatusReads : Obligations.BusyHoldsAllButStatusReads := by
  intro s t c k line tr hs hf hw hr hline hact h waiting isStatusRead
  have hturn : hostTurn s = waiting := hostTurn_of_wait hf hw
  have hstatus : waiting.status = ⟨true, false, false, 0#4⟩ := hs.status_of_flight hf
  have hheld : held tr waiting = !tr.isStatusRead := held_of_busy (by rw [hstatus]) tr
  rw [step_hostTurn_of_wait hr hf hw, hturn, hostMove_transfer (s := waiting) hline hact] at h
  obtain rfl := Host.Outcome.next.inj h
  refine ⟨fun hread => ?read, fun hnot => hostTransfer_of_held ?other⟩
  case read =>
    rw [hostTransfer_of_free (by rw [hheld, tr.isStatusRead_iff.2 hread]; rfl)]
    obtain ⟨we, addr, size, wdata⟩ := tr
    obtain ⟨rfl, rfl, rfl⟩ := hread
    rw [completeTransfer_statusRead, hstatus]
    rfl
  case other =>
    rw [hheld, Bool.eq_false_of_not_eq_true fun h => hnot (tr.isStatusRead_iff.1 h)]
    rfl

/-- While `BUSY = 1` no host move puts a command in flight or takes it out. -/
theorem inFlight_of_hostMove (hb : s.status.busy = true) (h : hostMove s = .next t) : t.inFlight = s.inFlight := by
  obtain ⟨k, rfl⟩ | ⟨line, tr, p, k, v, u, -, -, hh, heffect, rfl⟩ := hostMove_effect h
  · rfl
  · cases heffect with
    | accept _ _ hw => simp [busy_eq_false_of_write hh hw] at hb
    | nothing | status | operand | cell => rfl

/-! ### No step stops a well-formed script -/

theorem hostMove_answers (hlabels : LabelsResolve s) : ∃ t, hostMove s = .next t := by
  cases hline : currentLine s with
  | none => exact ⟨_, hostMove_ended hline⟩
  | some line =>
    cases line with
    | label l => exact ⟨_, hostMove_label hline⟩
    | bnz mask l =>
      rw [hostMove_bnz hline]
      by_cases hclear : s.host.lastR32 &&& mask = 0#32
      · exact ⟨_, hostBranch_of_clear hclear l⟩
      · have hused : l ∈ usedLabels s.host.script := mem_usedLabels_of_bnz (List.mem_of_getElem? hline)
        obtain ⟨k, hk, -⟩ := hostBranch_of_set hclear (mem_definedLabels_iff.1 (labelsResolve_iff.1 hlabels l hused))
        exact ⟨_, hk⟩
    | _ => exact ⟨_, hostMove_transfer hline rfl⟩

/-- Settles O35: the engine and the reset edge always answer, the host where its labels resolve; no step changes the
script. -/
theorem everyStepAnswersANextState : Obligations.EveryStepAnswersANextState := by
  intro s hlabels
  suffices hstep : ∃ t, step s = .next t by
    obtain ⟨t, ht⟩ := hstep
    refine ⟨t, ht, ?_⟩
    rwa [LabelsResolve, (step_frame ht).script]
  cases hr : resetNow s with
  | true => exact ⟨_, step_reset hr⟩
  | false =>
    cases hf : s.inFlight with
    | none =>
      rw [step_idle hr hf]
      exact hostMove_answers hlabels
    | some c =>
      cases hw : c.wait with
      | zero =>
        rw [step_engine hr hf hw]
        exact engineMove_answers _ _
      | succ k =>
        rw [step_wait hr hf hw]
        exact hostMove_answers hlabels

/-! ### Completion (R96, R115) -/

theorem NoResetFor.head {k : Nat} (h : NoResetFor (k + 1) s) : s.rstN.head? ≠ some false := by
  intro hhead
  obtain ⟨rest, hrest⟩ := List.head?_eq_some_iff.1 hhead
  simp [NoResetFor, hrest] at h

theorem NoResetFor.tail {k : Nat} (h : NoResetFor (k + 1) s) (ht : t.rstN = s.rstN.tail) : NoResetFor k t := by
  rw [NoResetFor, ht]
  cases hrst : s.rstN with
  | nil => simp
  | cons b rest =>
    rw [NoResetFor, hrst, List.take_succ_cons] at h
    exact fun hmem => h (List.mem_cons_of_mem _ hmem)

/-- Settles O36, by induction on the moves the command waits: a host move leaves it in flight with one move less. -/
theorem acceptedCommandCompletes : Obligations.AcceptedCommandCompletes := by
  intro s c hs hlabels hf hnoReset
  generalize hw : c.wait = k at hnoReset
  induction k generalizing s c with
  | zero =>
    obtain ⟨t, ht⟩ := engineMove_answers c (beginStep s)
    have hstep : step s = .next t := (step_engine (resetNow_eq_false hnoReset.head) hf hw).trans ht
    exact ⟨t, run_succ_of_step hstep 0, engineMove_completes ht⟩
  | succ k ih =>
    obtain ⟨t, hstep, htlabels⟩ := everyStepAnswersANextState s hlabels
    have hmove : hostMove (hostTurn s) = .next t := by rw [← step_hostTurn_of_wait hnoReset.head hf hw, hstep]
    have hflight : t.inFlight = some { c with wait := k } := by
      rw [inFlight_of_hostMove (s := hostTurn s) (hs.busy hf) hmove, hostTurn_of_wait hf hw]
    obtain ⟨v, hrun, hcompletes⟩ := ih t _ (everyStepKeepsTheInvariant s t hs hstep) htlabels hflight rfl
      (hnoReset.tail (step_frame hstep).rstN)
    exact ⟨v, (run_succ_of_step hstep _).trans hrun, hcompletes⟩

/-- While the host has nothing to do or waits with a transfer that is held, only what is left of the latency passes. -/
theorem step_held {k : Nat} (hb : s.status.busy = true) (hf : s.inFlight = some c) (hw : c.wait = k + 1)
    (hrst : s.rstN = [])
    (hwaits : currentLine s = none ∨
      ∃ line tr, currentLine s = some line ∧ line.act = .transfer tr ∧ tr.isStatusRead = false) :
    step s = .next { s with inFlight := some { c with wait := k }, port := none } := by
  have hturn : hostTurn s = { s with inFlight := some { c with wait := k }, port := none } := by
    rw [hostTurn_of_wait hf hw, hrst, List.tail_nil, ← hrst]
  rw [step_hostTurn_of_wait (by simp [hrst]) hf hw, ← hturn]
  rcases hwaits with hline | ⟨line, tr, hline, hact, hread⟩
  · exact hostMove_ended (s := hostTurn s) hline
  · have hheld : held tr (hostTurn s) = true := by rw [held_of_busy (s := hostTurn s) hb, hread]; rfl
    rw [hostMove_transfer (s := hostTurn s) hline hact, hostTransfer_of_held hheld]

/-- A step begins with no completion on the port, whatever the last one showed. -/
theorem step_withPort (s : State) (port : Option Completion) : step { s with port := port } = step s := rfl

/-- Settles O37, by induction on the latency: each host move takes one off it and clears the port. -/
theorem latencyShowsOnlyInStatusReads : Obligations.LatencyShowsOnlyInStatusReads := by
  intro s c k hs hf hrst hwaits
  have hb := hs.busy hf
  clear hs hf
  induction k generalizing s with
  | zero => rfl
  | succ k ih =>
    have hstep := step_held (s := { s with inFlight := some { c with wait := k + 1 } }) (k := k) hb rfl rfl hrst hwaits
    refine (run_succ_of_step hstep (k + 1)).trans ?_
    exact ih { s with port := none } hrst hwaits hb

/-! ### A reset during a command (R110) -/

/-- The cells of `writableRange`, in unbounded arithmetic. -/
theorem mem_writableRange_iff (p : Config.Params) (c : InFlight) (a : Nat) :
    (writableRange p c).1 ≤ a ∧ a < (writableRange p c).1 + (writableRange p c).2 ↔
      ((∃ adv, decode c.word = .command (.writeRecord adv)) ∧ c.ops.o + 12 + c.ops.n ≤ p.bufSize ∧
        c.ops.o ≤ a ∧ a ≤ c.ops.o + 11 + c.ops.n) ∨
      ((∃ adv, decode c.word = .command (.put32 adv)) ∧ c.ops.o + 4 ≤ p.bufSize ∧
        c.ops.o ≤ a ∧ a ≤ c.ops.o + 3) := by
  cases hd : decode c.word with
  | illegal why => simp [writableRange, hd]
  | command i =>
    cases i with
    | writeRecord adv =>
      by_cases hfits : c.ops.o + 12 + c.ops.n ≤ p.bufSize
      · have hstays : recordLeaves p c.ops = false := decide_eq_false (Nat.not_lt.2 hfits)
        simp [writableRange, hd, hstays, hfits, Config.recordFraming]
        omega
      · have hleaves : recordLeaves p c.ops = true := decide_eq_true (Nat.lt_of_not_le hfits)
        simp [writableRange, hd, hleaves, hfits]
    | put32 adv =>
      by_cases hfits : c.ops.o + 4 ≤ p.bufSize
      · have hstays : fieldLeaves p c.ops = false := decide_eq_false (Nat.not_lt.2 hfits)
        simp [writableRange, hd, hstays, hfits]
        omega
      · have hleaves : fieldLeaves p c.ops = true := decide_eq_true (Nat.lt_of_not_le hfits)
        simp [writableRange, hd, hleaves, hfits]
    | _ => simp [writableRange, hd]

theorem bufAfterReset_of_flight (hf : s.inFlight = some c) :
    bufAfterReset s = s.buf.erase (writableRange s.params c).1 (writableRange s.params c).2 := by
  simp [bufAfterReset, hf]

/-- Settles O42: the reset edge erases `writableRange`. -/
theorem resetUnwritesWhatTheCommandCouldWrite : Obligations.ResetUnwritesWhatTheCommandCouldWrite := by
  intro s t c hf hr h o n
  obtain rfl := Host.Outcome.next.inj ((step_of_rstN_low hr).symm.trans h)
  refine ⟨rfl, rfl, fun a => ?_⟩
  rw [resetEdge_buf, bufAfterReset_of_flight (s := beginStep s) hf, Memory.get_erase, beginStep_params, beginStep_buf,
    if_congr (mem_writableRange_iff s.params c a) rfl rfl, ite_or]
  rfl

/-- Settles O43: at power-on there is no error to discard the `CMD` write. -/
theorem powerOnIsIdleAndUnwritten : Obligations.PowerOnIsIdleAndUnwritten := by
  intro p w
  refine ⟨fun a => rfl, rfl, rfl, rfl, ?_⟩
  rw [completeTransfer_cmdWrite, acceptCmd_of_noErr rfl]
  rfl

end Sys2Proof.Machine
end
